-- ==== Sys2Proof/Word.lean ====
section
/-! DEFINITION. The bit-vector types of the CHIP-8 core (`00_scope.md` R13, R14): the widths the spec
fixes and nothing else. Every value is unsigned (R14). -/

namespace Sys2Proof

/-- A byte: a general register, a timer, a byte of RAM (R13). -/
abbrev Byte := BitVec 8

/-- A 16-bit word: an opcode, I, the PC, a return address (R13). -/
abbrev Word := BitVec 16

/-- A 4-bit field of an opcode: a register index, a sprite height, a logical key (R101, R45). -/
abbrev Nibble := BitVec 4

/-- The 12-bit immediate `nnn` of an opcode (R101). -/
abbrev Addr12 := BitVec 12

/-- One row of the display, column `x` at bit `63 - x` (R44). -/
abbrev Row := BitVec 64

/-- A mask of the 16 logical keys, key `k` at bit `k` (R45). -/
abbrev Keys := BitVec 16

end Sys2Proof
end

