-- ==== Sys2Proof/Syntax.lean ====
section
/-! DEFINITION. The 34 recognized instruction forms (`30_encoding.md` R111), one constructor per row of the
opcode map in the map's order, and each one's mnemonic as spec/opcode_table.json spells it. A field has the
width its place in the opcode gives it (R101 to R103), so every term of `Instr` is an instruction of the core. -/

namespace Sys2Proof

/-- An instruction: its kind and its operand fields (R110). -/
inductive Instr where
  /-- 00E0 (R246) -/
  | cls
  /-- 00EE (R141) -/
  | ret
  /-- 1nnn (R142) -/
  | jp (nnn : Addr12)
  /-- 2nnn (R143) -/
  | call (nnn : Addr12)
  /-- 3xkk (R144) -/
  | seImm (x : Nibble) (kk : Byte)
  /-- 4xkk (R145) -/
  | sneImm (x : Nibble) (kk : Byte)
  /-- 5xy0 (R146) -/
  | seReg (x y : Nibble)
  /-- 6xkk (R172) -/
  | ldImm (x : Nibble) (kk : Byte)
  /-- 7xkk (R173) -/
  | addImm (x : Nibble) (kk : Byte)
  /-- 8xy0 (R174) -/
  | ldReg (x y : Nibble)
  /-- 8xy1 (R175) -/
  | orReg (x y : Nibble)
  /-- 8xy2 (R176) -/
  | andReg (x y : Nibble)
  /-- 8xy3 (R177) -/
  | xorReg (x y : Nibble)
  /-- 8xy4 (R178) -/
  | addReg (x y : Nibble)
  /-- 8xy5 (R179) -/
  | subReg (x y : Nibble)
  /-- 8xy6 (R180) -/
  | shr (x y : Nibble)
  /-- 8xy7 (R181) -/
  | subn (x y : Nibble)
  /-- 8xyE (R182) -/
  | shl (x y : Nibble)
  /-- 9xy0 (R147) -/
  | sneReg (x y : Nibble)
  /-- Annn (R210) -/
  | ldI (nnn : Addr12)
  /-- Bnnn (R148) -/
  | jpV0 (nnn : Addr12)
  /-- Cxkk (R183) -/
  | rnd (x : Nibble) (kk : Byte)
  /-- Dxyn (R247) -/
  | drw (x y n : Nibble)
  /-- Ex9E (R281) -/
  | skp (x : Nibble)
  /-- ExA1 (R282) -/
  | sknp (x : Nibble)
  /-- Fx07 (R277) -/
  | ldVxDt (x : Nibble)
  /-- Fx0A (R283) -/
  | ldVxK (x : Nibble)
  /-- Fx15 (R278) -/
  | ldDtVx (x : Nibble)
  /-- Fx18 (R279) -/
  | ldStVx (x : Nibble)
  /-- Fx1E (R211) -/
  | addI (x : Nibble)
  /-- Fx29 (R212) -/
  | ldF (x : Nibble)
  /-- Fx33 (R213) -/
  | ldB (x : Nibble)
  /-- Fx55 (R214) -/
  | stRegs (x : Nibble)
  /-- Fx65 (R215) -/
  | ldRegs (x : Nibble)
deriving DecidableEq, Repr

/-- The mnemonic of an instruction's row in spec/opcode_table.json. -/
def Instr.mnemonic : Instr → String
  | .cls => "CLS"
  | .ret => "RET"
  | .jp _ => "JP_nnn"
  | .call _ => "CALL_nnn"
  | .seImm _ _ => "SE_Vx__kk"
  | .sneImm _ _ => "SNE_Vx__kk"
  | .seReg _ _ => "SE_Vx__Vy"
  | .ldImm _ _ => "LD_Vx__kk"
  | .addImm _ _ => "ADD_Vx__kk"
  | .ldReg _ _ => "LD_Vx__Vy"
  | .orReg _ _ => "OR_Vx__Vy"
  | .andReg _ _ => "AND_Vx__Vy"
  | .xorReg _ _ => "XOR_Vx__Vy"
  | .addReg _ _ => "ADD_Vx__Vy"
  | .subReg _ _ => "SUB_Vx__Vy"
  | .shr _ _ => "SHR_Vx__Vy"
  | .subn _ _ => "SUBN_Vx__Vy"
  | .shl _ _ => "SHL_Vx__Vy"
  | .sneReg _ _ => "SNE_Vx__Vy"
  | .ldI _ => "LD_I__nnn"
  | .jpV0 _ => "JP_V0__nnn"
  | .rnd _ _ => "RND_Vx__kk"
  | .drw _ _ _ => "DRW_Vx__Vy__n"
  | .skp _ => "SKP_Vx"
  | .sknp _ => "SKNP_Vx"
  | .ldVxDt _ => "LD_Vx__DT"
  | .ldVxK _ => "LD_Vx__K"
  | .ldDtVx _ => "LD_DT__Vx"
  | .ldStVx _ => "LD_ST__Vx"
  | .addI _ => "ADD_I__Vx"
  | .ldF _ => "LD_F__Vx"
  | .ldB _ => "LD_B__Vx"
  | .stRegs _ => "LD__I___Vx"
  | .ldRegs _ => "LD_Vx___I"

end Sys2Proof
end

