-- ==== Sys2Proof/Decode.lean ====
section
/-! DEFINITION. The instruction decoder (`30_encoding.md` R101, R106 to R114): a pure, total function of the
opcode (R110), and the encoder, written from the encodings the instruction rules give. The quirk flags take no
part in either (R110, R117). -/

namespace Sys2Proof

/-- The high nibble `h = w[15:12]` (R101). -/
def fieldH (w : Word) : Nibble := w.extractLsb' 12 4
/-- `x = w[11:8]` (R101). -/
def fieldX (w : Word) : Nibble := w.extractLsb' 8 4
/-- `y = w[7:4]` (R101). -/
def fieldY (w : Word) : Nibble := w.extractLsb' 4 4
/-- `n = w[3:0]` (R101). -/
def fieldN (w : Word) : Nibble := w.extractLsb' 0 4
/-- `kk = w[7:0]` (R101). -/
def fieldKK (w : Word) : Byte := w.extractLsb' 0 8
/-- `nnn = w[11:0]` (R101). -/
def fieldNNN (w : Word) : Addr12 := w.extractLsb' 0 12

/-- Why bytes are no instruction. `unrecognizedOpcode` is the decoder's only failure on a whole opcode (R109);
`tooShort` answers a byte list that does not hold one (the fetch never gives such a list). -/
inductive Rejection where
  | unrecognizedOpcode (w : Word)
  | tooShort
deriving DecidableEq, Repr

/-- Group 0: only the two zero-operand forms, compared as whole words (R106, R116). -/
def decodeGroup0 (w : Word) : Option Instr :=
  if w = 0x00E0 then some .cls else if w = 0x00EE then some .ret else none

/-- Group 8: a secondary switch on the low nibble (R112). -/
def decodeGroup8 (w : Word) : Option Instr :=
  let x := fieldX w
  let y := fieldY w
  match (fieldN w).toNat with
  | 0x0 => some (.ldReg x y)
  | 0x1 => some (.orReg x y)
  | 0x2 => some (.andReg x y)
  | 0x3 => some (.xorReg x y)
  | 0x4 => some (.addReg x y)
  | 0x5 => some (.subReg x y)
  | 0x6 => some (.shr x y)
  | 0x7 => some (.subn x y)
  | 0xE => some (.shl x y)
  | _ => none

/-- Group E: a secondary switch on the low byte (R113). -/
def decodeGroupE (w : Word) : Option Instr :=
  match (fieldKK w).toNat with
  | 0x9E => some (.skp (fieldX w))
  | 0xA1 => some (.sknp (fieldX w))
  | _ => none

/-- Group F: a secondary switch on the low byte (R114). -/
def decodeGroupF (w : Word) : Option Instr :=
  let x := fieldX w
  match (fieldKK w).toNat with
  | 0x07 => some (.ldVxDt x)
  | 0x0A => some (.ldVxK x)
  | 0x15 => some (.ldDtVx x)
  | 0x18 => some (.ldStVx x)
  | 0x1E => some (.addI x)
  | 0x29 => some (.ldF x)
  | 0x33 => some (.ldB x)
  | 0x55 => some (.stRegs x)
  | 0x65 => some (.ldRegs x)
  | _ => none

/-- The instruction a word encodes, or none (R106, R107): the high nibble selects, and groups 0, 5, 8, 9, E and F
look further. The secondary field of groups 5 and 9 must be 0 (R108). -/
def decodeWord (w : Word) : Option Instr :=
  match (fieldH w).toNat with
  | 0x0 => decodeGroup0 w
  | 0x1 => some (.jp (fieldNNN w))
  | 0x2 => some (.call (fieldNNN w))
  | 0x3 => some (.seImm (fieldX w) (fieldKK w))
  | 0x4 => some (.sneImm (fieldX w) (fieldKK w))
  | 0x5 => if fieldN w = 0 then some (.seReg (fieldX w) (fieldY w)) else none
  | 0x6 => some (.ldImm (fieldX w) (fieldKK w))
  | 0x7 => some (.addImm (fieldX w) (fieldKK w))
  | 0x8 => decodeGroup8 w
  | 0x9 => if fieldN w = 0 then some (.sneReg (fieldX w) (fieldY w)) else none
  | 0xA => some (.ldI (fieldNNN w))
  | 0xB => some (.jpV0 (fieldNNN w))
  | 0xC => some (.rnd (fieldX w) (fieldKK w))
  | 0xD => some (.drw (fieldX w) (fieldY w) (fieldN w))
  | 0xE => decodeGroupE w
  | 0xF => decodeGroupF w
  | _ => none

/-- Decode an opcode (R109): its instruction, or the unrecognized verdict carrying the raw value. -/
def decode (w : Word) : Except Rejection Instr :=
  match decodeWord w with
  | some i => .ok i
  | none => .error (.unrecognizedOpcode w)

/-- The opcode of two bytes, the first at the lower address (R73): the first byte is bits 15:8. -/
def joinBytes (hi lo : Byte) : Word := hi ++ lo

/-- The bytes of an opcode as RAM holds them: bits 15:8 at the lower address (R73). -/
def splitWord (w : Word) : Byte × Byte := (w.extractLsb' 8 8, w.extractLsb' 0 8)

/-- Decode the instruction at the head of a byte list; every instruction is two bytes (R100, R119). -/
def decodeBytes : List Byte → Except Rejection (Instr × List Byte)
  | hi :: lo :: rest =>
    match decode (joinBytes hi lo) with
    | .ok i => .ok (i, rest)
    | .error r => .error r
  | _ => .error .tooShort

/-- `h ++ nnn` (R101). -/
def packNNN (h : Nibble) (nnn : Addr12) : Word := h ++ nnn
/-- `h ++ x ++ kk` (R101). -/
def packXKK (h x : Nibble) (kk : Byte) : Word := h ++ x ++ kk
/-- `h ++ x ++ y ++ n` (R101). -/
def packXYN (h x y n : Nibble) : Word := h ++ x ++ y ++ n

/-- The opcode of an instruction, from the "Encoding" line of its rule. -/
def encode : Instr → Word
  | .cls => 0x00E0
  | .ret => 0x00EE
  | .jp nnn => packNNN 0x1 nnn
  | .call nnn => packNNN 0x2 nnn
  | .seImm x kk => packXKK 0x3 x kk
  | .sneImm x kk => packXKK 0x4 x kk
  | .seReg x y => packXYN 0x5 x y 0x0
  | .ldImm x kk => packXKK 0x6 x kk
  | .addImm x kk => packXKK 0x7 x kk
  | .ldReg x y => packXYN 0x8 x y 0x0
  | .orReg x y => packXYN 0x8 x y 0x1
  | .andReg x y => packXYN 0x8 x y 0x2
  | .xorReg x y => packXYN 0x8 x y 0x3
  | .addReg x y => packXYN 0x8 x y 0x4
  | .subReg x y => packXYN 0x8 x y 0x5
  | .shr x y => packXYN 0x8 x y 0x6
  | .subn x y => packXYN 0x8 x y 0x7
  | .shl x y => packXYN 0x8 x y 0xE
  | .sneReg x y => packXYN 0x9 x y 0x0
  | .ldI nnn => packNNN 0xA nnn
  | .jpV0 nnn => packNNN 0xB nnn
  | .rnd x kk => packXKK 0xC x kk
  | .drw x y n => packXYN 0xD x y n
  | .skp x => packXKK 0xE x 0x9E
  | .sknp x => packXKK 0xE x 0xA1
  | .ldVxDt x => packXKK 0xF x 0x07
  | .ldVxK x => packXKK 0xF x 0x0A
  | .ldDtVx x => packXKK 0xF x 0x15
  | .ldStVx x => packXKK 0xF x 0x18
  | .addI x => packXKK 0xF x 0x1E
  | .ldF x => packXKK 0xF x 0x29
  | .ldB x => packXKK 0xF x 0x33
  | .stRegs x => packXKK 0xF x 0x55
  | .ldRegs x => packXKK 0xF x 0x65

/-- The opcode whose bits are `w` in the numbering of spec/opcode_table.json: every instruction is one 16-bit word,
bit 0 its least significant; bits at and above `nbits` are 0. -/
def tableWord (nbits w : Nat) : Word := BitVec.ofNat 16 (w % 2 ^ nbits)

/-- The bytes of that opcode as RAM holds them (R73). -/
def tableBytes (nbits w : Nat) : List Byte :=
  let b := splitWord (tableWord nbits w)
  [b.1, b.2]

/-- What the decoder reads from an opcode given in the opcode table's numbering. -/
def decodeTableWord (nbits w : Nat) : Option Instr :=
  match decodeBytes (tableBytes nbits w) with
  | .ok (i, _) => some i
  | .error _ => none

end Sys2Proof
end

