-- ==== Sys2Proof/Config.lean ====
section
/-! DEFINITION. The implementation parameters of `00_scope.md` R6 to R12 as plain data (State carries one value
of `Config`, which no operation changes, R48), and the free values of the model: opaque constants with no body,
of which nothing can be proved. The values the spec gives the parameters stand in Machine/Setup.lean. -/

namespace Sys2Proof

/-- The compatibility mode `MODE` (R10). -/
inductive Mode where
  | chip8
  | chip48
  | superChip
deriving DecidableEq, Repr, Inhabited

/-- FeatureFlags (R10, R48): the mode, and the two individual overrides ("per-feature boolean overrides");
`none` is no override. -/
structure FeatureFlags where
  mode : Mode
  shiftOverride : Option Bool
  incrementOverride : Option Bool
deriving DecidableEq, Repr, Inhabited

/-- The parameters a model takes (R6 to R12, and `FONT` of R216). -/
structure Config where
  /-- `MEM_SIZE` (R6): the number of bytes of RAM. -/
  memSize : Nat
  /-- `STACK_DEPTH` (R7): the capacity of the return-address stack. -/
  stackDepth : Nat
  /-- `PROGRAM_START` (R8). -/
  programStart : Nat
  /-- `FONT_BASE` (R9). -/
  fontBase : Nat
  /-- `MODE` and its overrides (R10). -/
  flags : FeatureFlags
  /-- `ADD_IMM_SETS_VF` (R11): does 7xkk write its carry into VF. -/
  addImmSetsVf : Bool
  /-- `FONT_INDEX_MASKED` (R11): does Fx29 use only the low nibble of Vx. -/
  fontIndexMasked : Bool
  /-- `CPU_TICKS_PER_TIMER_TICK` (R12), of the driver's protocol. -/
  cpuTicksPerTimerTick : Nat
  /-- `FONT` (R216): the 80 bytes of the hexadecimal digit sprites. -/
  font : Vector Byte 80
deriving DecidableEq, Repr, Inhabited

/-- The `MODE` fixed at boot. The spec names no default (R10, D4, N4 "Must not assume: that CHIP_8 is the
default"): a free value. DESIGN CHOICE, notes/assumptions/4.md; safe. -/
opaque Config.bootMode : Mode

/-- `draw_byte()` (R15, R16): the `k`-th draw is a free byte under no law (R183, D18).
notes/assumptions/5.md; safe. -/
opaque Config.drawByte : Nat → Byte

/-- `draw_bool()` (R15, R16): a free truth value (R281, R282, D15). notes/assumptions/5.md; safe. -/
opaque Config.drawBool : Nat → Bool

end Sys2Proof
end

