-- ==== Sys2Proof/Machine/Setup.lean ====
section
/-! DEFINITION. The values the spec gives the parameters: the default configuration (`00_scope.md` R6 to R12), the
standard font (`43_index_memory.md` R216), and the two quirk flags as they follow from `MODE` (R10). -/

namespace Sys2Proof.Machine

/-- `SHIFT_READS_VY` (R10): true iff `MODE` is CHIP_8, unless overridden. -/
def shiftReadsVy (f : FeatureFlags) : Bool :=
  match f.shiftOverride with
  | some b => b
  | none =>
    match f.mode with
    | .chip8 => true
    | .chip48 => false
    | .superChip => false

/-- `LOADSTORE_INCREMENTS_I` (R10): true iff `MODE` is CHIP_8 or CHIP_48, unless overridden (90_conflicts.md C5). -/
def loadStoreIncrementsI (f : FeatureFlags) : Bool :=
  match f.incrementOverride with
  | some b => b
  | none =>
    match f.mode with
    | .chip8 => true
    | .chip48 => true
    | .superChip => false

/-- The standard CHIP-8 font, digit by digit, top row first (R216, D27). -/
def standardFont : Vector Byte 80 :=
  #v[0xF0, 0x90, 0x90, 0x90, 0xF0,  0x20, 0x60, 0x20, 0x20, 0x70,
     0xF0, 0x10, 0xF0, 0x80, 0xF0,  0xF0, 0x10, 0xF0, 0x10, 0xF0,
     0x90, 0x90, 0xF0, 0x10, 0x10,  0xF0, 0x80, 0xF0, 0x10, 0xF0,
     0xF0, 0x80, 0xF0, 0x90, 0xF0,  0xF0, 0x10, 0x20, 0x40, 0x40,
     0xF0, 0x90, 0xF0, 0x90, 0xF0,  0xF0, 0x90, 0xF0, 0x10, 0xF0,
     0xF0, 0x90, 0xF0, 0x90, 0x90,  0xE0, 0x90, 0xE0, 0x90, 0xE0,
     0xF0, 0x80, 0x80, 0x80, 0xF0,  0xE0, 0x90, 0x90, 0x90, 0xE0,
     0xF0, 0x80, 0xF0, 0x80, 0xF0,  0xF0, 0x80, 0xF0, 0x80, 0x80]

/-- FeatureFlags as fixed at boot: the free mode (R10, D4), no override. -/
def bootFlags : FeatureFlags :=
  { mode := Config.bootMode, shiftOverride := none, incrementOverride := none }

/-- The default model of R6 to R12: the configuration `State.reset` carries. -/
def bootConfig : Config :=
  { memSize := 4096
    stackDepth := 16
    programStart := 0x200
    fontBase := 0
    flags := bootFlags
    addImmSetsVf := false
    fontIndexMasked := false
    cpuTicksPerTimerTick := 9
    font := standardFont }

end Sys2Proof.Machine
end

