-- ==== Sys2Proof/Machine/State.lean ====
section
/-! DEFINITION. The state of the core as plain data (`10_state.md` R30 to R52), the reasons a step can stop, and the
state right after reset (R51). Four fields at the end of `State` are the model's own and no part of the spec's tuple. -/

namespace Sys2Proof.Machine

/-- RAM, as the cells that differ from what an unlisted address reads as (`resetByte`, Machine/Ops.lean), with
strictly rising addresses (`Memory.wf`). The lowest-level operations are in Machine/Ops.lean. -/
abbrev Memory := List Host.Cell

/-- The CPU run state (R46). There is no halted state. -/
inductive RunState where
  | running
  | paused
deriving DecidableEq, Repr, Inhabited

/-- The last command sent to the tone generator (R43, R275). -/
inductive Tone where
  | off
  | on
deriving DecidableEq, Repr, Inhabited

/-- A command sent to the external tone generator (R276, R326). -/
inductive ToneEvent where
  | start
  | stop
deriving DecidableEq, Repr, Inhabited

/-- The fatal errors of the core (R300). A fault stops the machine: there is no trap, no vector and no saved PC
(R308), and only a program load leaves the faulted state (R305). Stopping is safe: the core has no further step
either. -/
inductive Fault where
  /-- Code 1: raised by the CPU tick when the fetched opcode is not recognized (R109, R301). Safe. -/
  | unrecognizedOpcode (w : Word)
  /-- Code 2: raised by an access to RAM at or above `MEM_SIZE`, from the fetch, Dxyn, Fx33, Fx55, Fx65 and a program
  load (R71, R302), and by a register-file access with an index above 15 (R33), which no instruction makes. Safe. -/
  | memoryRange (a : Nat)
  /-- Code 3: raised by 2nnn when `SP = STACK_DEPTH` (R40, R303). Safe. -/
  | stackOverflow
  /-- Code 4: raised by 00EE when `SP = 0` (R41, R304). Safe. -/
  | stackUnderflow
deriving DecidableEq, Repr, Inhabited

/-- Why an interface operation has no transition. No instruction is refused: these belong to the host interface. -/
inductive Refusal where
  /-- An instruction without a meaning; `exec` answers it in an arm, and no arm does. Safe. -/
  | notModelled (mnemonic : String)
  /-- A CPU tick or timer tick of a faulted core, "refused" by R305. Safe. -/
  | faulted (f : Fault)
  /-- A CPU tick or timer tick before the first program load, "refused" by R347. Safe. -/
  | notLoaded
  /-- A CPU tick, a timer tick or a load under a configuration outside the bounds of R6 and R7, refused by D31 and
  U32. Safe. -/
  | badConfiguration
  /-- A run that goes on after a load without an image, "not modelled (refused)" by R345. Safe. -/
  | noImage
  /-- A key press or release of a key above 15, which the host cannot deliver (U21). Safe. -/
  | noSuchKey (k : Nat)
  /-- A pixel read outside the screen, "refused at the interface" by R244. Safe. -/
  | noSuchPixel (x y : Nat)
deriving DecidableEq, Repr

/-- The operations of the host interface that change state (R320 to R324); the only steps of the core (R5).
Keys are `Nat` here because the bound is the interface's check (U21). -/
inductive HostOp where
  /-- `load(image)` (R320); `none` is a load with no image (R345). -/
  | load (image : Option (List Byte))
  /-- `cpuTick()` (R321). -/
  | cpuTick
  /-- `timerTick()` (R322). -/
  | timerTick
  /-- `keyDown(k)` (R323). -/
  | keyDown (k : Nat)
  /-- `keyUp(k)` (R324). -/
  | keyUp (k : Nat)
deriving DecidableEq, Repr, Inhabited

/-- The state of the core (R30). -/
structure State where
  /-- The configuration (R6 to R12, R48); no operation changes it. -/
  cfg : Config
  /-- `V`: the general registers V0 to VF (R31). -/
  v : Vector Byte 16
  /-- `I`: the index register (R34). -/
  i : Word
  /-- `PC` (R35). -/
  pc : Word
  /-- `stack`: `STACK_DEPTH` slots of return addresses (R37). -/
  stack : List Word
  /-- `SP`: how many entries the stack holds (R37). -/
  sp : Nat
  /-- `DT`: the delay timer (R42). -/
  dt : Byte
  /-- `ST`: the sound timer (R43). -/
  st : Byte
  /-- `RAM` (R70). -/
  ram : Memory
  /-- `display`: one 64-bit word per row (R44). -/
  display : Vector Row 32
  /-- `live`: the key mask the host writes (R45). -/
  live : Keys
  /-- `locked`: the key mask instructions read (R45). -/
  locked : Keys
  /-- `cpu`: RUNNING or PAUSED (R46). -/
  cpu : RunState
  /-- `waitReg`: the target register of a pending Fx0A (R46). -/
  waitReg : Nibble
  /-- `pendingKey`: the key-down edge latched while PAUSED (R47). -/
  pendingKey : Option Nibble
  /-- `tone`: the last tone command sent (R43). -/
  tone : Tone
  /-- `fault`: the fatal error, if one was raised (R49). -/
  fault : Option Fault
  /-- MODEL'S OWN: has a program been loaded? A tick before the first load is refused (R347). -/
  loaded : Bool
  /-- MODEL'S OWN: the tone events emitted so far, oldest first: the output of R276 and R326. -/
  events : List ToneEvent
  /-- MODEL'S OWN: how many free values have been drawn (R16); the next one is applied to it. -/
  draws : Nat
  /-- MODEL'S OWN: the operations the host performs next, first one first; when it is empty the host performs a CPU
  tick (R327, R328). -/
  schedule : List HostOp
deriving DecidableEq, Repr, Inhabited

/-- What a faulted core holds: the state components after a fault are free (R305, U12, U13). A free value, applied
to the draw counter. notes/assumptions/6.md; safe. -/
opaque freeState : Nat → State

/-- The state right after reset (R51, R340): the state a program load leaves, before any image byte is placed. RAM
lists nothing: an unlisted address reads as the reset leaves it, the font or 0 (Machine/Ops.lean, `resetByte`). -/
def State.reset : State :=
  { cfg := bootConfig
    v := Vector.replicate 16 0
    i := 0
    pc := BitVec.ofNat 16 bootConfig.programStart
    stack := List.replicate bootConfig.stackDepth 0
    sp := 0
    dt := 0
    st := 0
    ram := []
    display := Vector.replicate 32 0
    live := 0
    locked := 0
    cpu := .running
    waitReg := 0
    pendingKey := none
    tone := .off
    fault := none
    loaded := true
    events := []
    draws := 0
    schedule := [] }

end Sys2Proof.Machine
end

