-- ==== Sys2Proof/Machine/Ops.lean ====
section
/-! DEFINITION. The named operations over the state that the instruction meanings and the host interface share:
raising a fault, RAM, the register file, PC and I, the stack, the timers and the tone, the key masks, and the
display. Machine/Operands.lean and Machine/Flags.lean hold the operand forms and the flag computations. -/

namespace Sys2Proof.Machine

/-! ### Faults -/

/-- `raise E` (R15): the operation that raised the fault ends, and the machine stops with it. There is no trap, no
handler and no return from one (R305, R306, R308, R309). -/
def raise (f : Fault) : Host.Outcome State Fault Refusal := .fault f

/-- An instruction or a load that may have raised a fault: its next state, or the fault. -/
def finish (r : Except Fault State) : Host.Outcome State Fault Refusal :=
  match r with
  | .ok s => .next s
  | .error f => raise f

/-- The state a fault leaves (R305), given the state `s` the operation had reached: `fault` holds it, every other state
component is a free draw. What is no component of the core's state stays: the configuration, what the host has still to
do, the events emitted until the fault (R326: an output once sent), and that a program was loaded. That these stay is the
model's choice, DESIGN CHOICE, notes/assumptions/6.md; safe but for the events. -/
def afterFault (f : Fault) (s : State) : State :=
  { freeState s.draws with
    cfg := s.cfg, fault := some f, loaded := true, events := s.events, draws := s.draws + 1, schedule := s.schedule }

/-! ### RAM -/

/-- The byte an unlisted address of RAM reads as: what the reset leaves there (R341, R342): the font table at
`FONT_BASE` to `FONT_BASE + 79` (R216), 0 everywhere else. -/
def resetByte (c : Config) (a : Nat) : Byte :=
  if c.fontBase ≤ a then (c.font[a - c.fontBase]?).getD 0 else 0

/-- The canonical form of RAM: addresses strictly rising and inside RAM, and no cell equal to what an unlisted
address reads as, so that equal memories are equal lists. -/
abbrev Memory.wf (c : Config) (m : Memory) : Prop :=
  m.Pairwise (fun p q => p.1 < q.1) ∧ ∀ p ∈ m, p.1 < c.memSize ∧ p.2 ≠ resetByte c p.1

/-- The cell listed at an address, if there is one. -/
def Memory.find : Memory → Nat → Option Byte
  | [], _ => none
  | (k, b) :: m, a => if k = a then some b else Memory.find m a

/-- The byte at an address, listed or not. -/
def Memory.read (c : Config) (m : Memory) (a : Nat) : Byte := (Memory.find m a).getD (resetByte c a)

/-- List a cell in its place. -/
def Memory.insert : Memory → Nat → Byte → Memory
  | [], a, b => [(a, b)]
  | (k, d) :: m, a, b =>
    if a < k then (a, b) :: (k, d) :: m
    else if k = a then (a, b) :: m
    else (k, d) :: Memory.insert m a b

/-- Unlist an address. -/
def Memory.erase (m : Memory) (a : Nat) : Memory := m.filter (fun p => decide (p.1 ≠ a))

/-- Write a byte, keeping the canonical form: a byte equal to what an unlisted address reads as is not listed. -/
def Memory.write (c : Config) (m : Memory) (a : Nat) (b : Byte) : Memory :=
  if b = resetByte c a then Memory.erase m a else Memory.insert m a b

/-- `MemRead(a, 1)` (R71): bounds-checked, the address a natural number that never wraps (R76). -/
def memRead (s : State) (a : Nat) : Except Fault Byte :=
  if a < s.cfg.memSize then .ok (Memory.read s.cfg s.ram a) else .error (.memoryRange a)

/-- `MemWrite(a, 1, b)` (R71). -/
def memWrite (s : State) (a : Nat) (b : Byte) : Except Fault State :=
  if a < s.cfg.memSize then .ok { s with ram := Memory.write s.cfg s.ram a b } else .error (.memoryRange a)

/-- `n` reads at `a, a+1, ...` in that order (R15); the first that is out of range raises its fault (R307). -/
def readBytes : Nat → State → Nat → Except Fault (List Byte)
  | 0, _, _ => .ok []
  | n + 1, s, a =>
    match memRead s a with
    | .error f => .error f
    | .ok b =>
      match readBytes n s (a + 1) with
      | .error f => .error f
      | .ok bs => .ok (b :: bs)

/-- Writes at `a, a+1, ...` in that order; the first that is out of range raises its fault (R307). -/
def writeBytes : List Byte → State → Nat → Except Fault State
  | [], s, _ => .ok s
  | b :: bs, s, a =>
    match memWrite s a b with
    | .error f => .error f
    | .ok t => writeBytes bs t (a + 1)

/-! ### The register file -/

/-- The index of VF (R32). -/
def vf : Nibble := 0xF

/-- `V[r]` for a register field of an opcode (R31): every 4-bit index names a register. -/
def State.reg (s : State) (r : Nibble) : Byte := s.v[r.toNat]'r.isLt

/-- `V[r] <- b`. -/
def State.setReg (s : State) (r : Nibble) (b : Byte) : State := { s with v := s.v.set r.toNat b r.isLt }

/-- The register file is a validated memory of size 16 (R33): a read by a loop counter. -/
def regFileRead (s : State) (k : Nat) : Except Fault Byte :=
  if h : k < 16 then .ok (s.v[k]'h) else .error (.memoryRange k)

/-- A write of the register file by a loop counter (R33). -/
def regFileWrite (s : State) (k : Nat) (b : Byte) : Except Fault State :=
  if h : k < 16 then .ok { s with v := s.v.set k b h } else .error (.memoryRange k)

/-- The `n` registers from index `k` on, in ascending order (R214). -/
def readRegs : Nat → State → Nat → Except Fault (List Byte)
  | 0, _, _ => .ok []
  | n + 1, s, k =>
    match regFileRead s k with
    | .error f => .error f
    | .ok b =>
      match readRegs n s (k + 1) with
      | .error f => .error f
      | .ok bs => .ok (b :: bs)

/-- Load registers from index `k` on, in ascending order (R215). -/
def writeRegs : List Byte → State → Nat → Except Fault State
  | [], s, _ => .ok s
  | b :: bs, s, k =>
    match regFileWrite s k b with
    | .error f => .error f
    | .ok t => writeRegs bs t (k + 1)

/-! ### PC and I -/

/-- `PC <- n`, "always reduced modulo 0x10000 on assignment" (R35). -/
def State.setPc (s : State) (n : Nat) : State := { s with pc := BitVec.ofNat 16 n }

/-- `I <- n`, a 16-bit register (R34). -/
def State.setI (s : State) (n : Nat) : State := { s with i := BitVec.ofNat 16 n }

/-- `skipNextInstruction()` (R140). -/
def skipNext (s : State) : State := s.setPc (s.pc.toNat + 2)

/-- Skip if the condition holds; the skip instructions write nothing but PC (R150). -/
def skipIf (c : Bool) (s : State) : State :=
  match c with
  | true => skipNext s
  | false => s

/-! ### The stack -/

/-- `StackClear()` (R38). -/
def stackClear (s : State) : State := { s with stack := List.replicate s.cfg.stackDepth 0, sp := 0 }

/-- `Push(v)` (R40): an overflow when the stack is full. -/
def push (s : State) (v : Word) : Except Fault State :=
  if s.sp < s.cfg.stackDepth then .ok { s with stack := s.stack.set s.sp v, sp := s.sp + 1 }
  else .error .stackOverflow

/-- `Pop()` (R41): an underflow when the stack is empty; the popped slot keeps its value (D25). -/
def pop (s : State) : Except Fault (Word × State) :=
  match s.sp with
  | 0 => .error .stackUnderflow
  | n + 1 => .ok ((s.stack[n]?).getD 0, { s with sp := n })

/-! ### Timers and the tone -/

/-- `emit start()` or `emit stop()` (R15, R326), and `tone` follows the command (R272, R273). -/
def emitTone (e : ToneEvent) (s : State) : State :=
  { s with
    events := s.events ++ [e]
    tone := match e with
      | .start => .on
      | .stop => .off }

/-- `DelayTick()` (R270). -/
def delayTick (s : State) : State := if 0 < s.dt.toNat then { s with dt := s.dt - 1 } else s

/-- The delay timer's setter (R278). -/
def delaySet (s : State) (b : Byte) : State := { s with dt := b }

/-- `DelayClear()` (R271). -/
def delayClear (s : State) : State := delaySet s 0

/-- `SoundSet(v)` (R272). -/
def soundSet (s : State) (b : Byte) : State :=
  if 0 < b.toNat then emitTone .start { s with st := b }
  else if 0 < s.st.toNat then emitTone .stop { s with st := b }
  else { s with st := b }

/-- `SoundClear()` (R271, D29). -/
def soundClear (s : State) : State := soundSet s 0

/-- `SoundTick()` (R273). -/
def soundTick (s : State) : State :=
  if 0 < s.st.toNat then
    if 0 < (s.st - 1).toNat then emitTone .start { s with st := s.st - 1 }
    else emitTone .stop { s with st := s.st - 1 }
  else s

/-! ### Keys -/

/-- Bit `k` of a key mask (R45). -/
def keyBit (m : Keys) (k : Nat) : Bool := m.getLsbD k

/-- `InputLock()` (R280): one atomic read of the live mask. -/
def inputLock (s : State) : State := { s with locked := s.live }

/-- The key-down edge latch (R285): the first edge while PAUSED is latched. -/
def latchEdge (s : State) (k : Nibble) : State :=
  match s.cpu, s.pendingKey with
  | .paused, none => { s with pendingKey := some k }
  | _, _ => s

/-- Set bit `k` of the live mask, with the edge latch if it was clear; otherwise nothing (R323). -/
def pressKey (s : State) (k : Nibble) : State :=
  if keyBit s.live k.toNat then s
  else { latchEdge s k with live := s.live ||| (1#16 <<< k.toNat) }

/-- Clear bit `k` of the live mask (R324). -/
def releaseKey (s : State) (k : Nibble) : State := { s with live := s.live &&& ~~~(1#16 <<< k.toNat) }

/-- Fx0A's wait (R283). -/
def pauseForKey (s : State) (x : Nibble) : State := { s with cpu := .paused, waitReg := x, pendingKey := none }

/-- `resume_if_edge()` (R286). -/
def resumeIfEdge (s : State) : State :=
  match s.pendingKey with
  | none => s
  | some k => { s.setReg s.waitReg (k.zeroExtend 8) with cpu := .running, pendingKey := none }

/-! ### The display -/

/-- A sprite byte in its place in a row (R240): shifted into position, or clipped at the right edge (R242). -/
def spriteRow (ax : Nat) (b : Byte) : Row :=
  if ax ≤ 56 then b.zeroExtend 64 <<< (56 - ax) else b.zeroExtend 64 >>> (ax - 56)

/-- `DisplaySet(x, y, b)` (R240): the display after it, and the collision bit (R243). -/
def displaySet (d : Vector Row 32) (x y : Nat) (b : Byte) : Vector Row 32 × Bool :=
  let v := spriteRow (x % 64) b
  let h : y % 32 < 32 := Nat.mod_lt y (by decide)
  let old := d[y % 32]'h
  (d.set (y % 32) (old ^^^ v) h, decide (old &&& v ≠ 0))

/-- The row loop of Dxyn (R247): one sprite byte a row, rows ascending, with the collision so far. -/
def drawRows (x : Nat) : Nat → List Byte → Vector Row 32 → Bool → Vector Row 32 × Bool
  | _, [], d, c => (d, c)
  | y, b :: bs, d, c =>
    let r := displaySet d x y b
    drawRows x (y + 1) bs r.1 (c || r.2)

/-- `DisplayGet(x, y)` (R244) for coordinates on the screen. -/
def displayGet (d : Vector Row 32) (x y : Nat) : Bool :=
  match d[y]? with
  | some row => row.getLsbD (63 - x)
  | none => false

/-- `DisplayClear()` (R245). -/
def displayClear (s : State) : State := { s with display := Vector.replicate 32 0 }

/-! ### Free values -/

/-- `draw_byte()` (R15): a fresh free byte. -/
def drawByte (s : State) : Byte × State := (Config.drawByte s.draws, { s with draws := s.draws + 1 })

/-- `draw_bool()` (R15): a fresh free truth value. -/
def drawBool (s : State) : Bool × State := (Config.drawBool s.draws, { s with draws := s.draws + 1 })

end Sys2Proof.Machine
end

