-- ==== Sys2Proof/Machine/Operands.lean ====
section
/-! DEFINITION. The operand forms of the instruction set: the value operands of the shifts, the jump targets, the
arithmetic of I, the font address, the decimal digits, and the key a register names. -/

namespace Sys2Proof.Machine

/-- The source of 8xy6 and 8xyE (R180, R182): Vy when `SHIFT_READS_VY`, else Vx. -/
def shiftSource (s : State) (x y : Nibble) : Byte :=
  match shiftReadsVy s.cfg.flags with
  | true => s.reg y
  | false => s.reg x

/-- The target of Bnnn (R148): the offset register is V0 in every mode (D8). -/
def offsetTarget (s : State) (nnn : Addr12) : Nat := nnn.toNat + (s.reg 0).toNat

/-- I arithmetic wraps modulo `MEM_SIZE` (R211, R214, R215). -/
def indexPlus (s : State) (k : Nat) : Nat := (s.i.toNat + k) % s.cfg.memSize

/-- I after a block transfer of V0 to Vx (R214, R215): incremented by exactly x + 1, or unchanged. -/
def indexAfterTransfer (s : State) (x : Nibble) : Nat :=
  match loadStoreIncrementsI s.cfg.flags with
  | true => indexPlus s (x.toNat + 1)
  | false => s.i.toNat

/-- The digit Fx29 looks up (R212): the low nibble of Vx when `FONT_INDEX_MASKED`, else all of Vx. -/
def fontDigit (s : State) (x : Nibble) : Nat :=
  match s.cfg.fontIndexMasked with
  | true => (s.reg x &&& 0xF).toNat
  | false => (s.reg x).toNat

/-- `getLocationOfSpriteDigit(d)` (R212). -/
def fontAddress (c : Config) (d : Nat) : Nat := c.fontBase + d * 5

/-- The decimal digits of a byte, hundreds first (R213). -/
def decimalDigits (b : Byte) : List Byte :=
  [BitVec.ofNat 8 (b.toNat / 100), BitVec.ofNat 8 (b.toNat / 10 % 10), BitVec.ofNat 8 (b.toNat % 10)]

/-- Is the key in Vx pressed (R281, R282)? A register above 15 names no key: the answer is a free draw (D15). -/
def keyTest (s : State) (x : Nibble) : Bool × State :=
  if (s.reg x).toNat ≤ 15 then (keyBit s.locked (s.reg x).toNat, s) else drawBool s

end Sys2Proof.Machine
end

