-- ==== Sys2Proof/Machine/Flags.lean ====
section
/-! DEFINITION. The computations of VF as a flag (`10_state.md` R32) and the results that go with them: exact sums
and differences of the operands' values, narrowed to 8 bits at the end (`42_alu.md` R170). -/

namespace Sys2Proof.Machine

/-- A flag in VF: 1 or 0. -/
def flagByte (c : Bool) : Byte :=
  match c with
  | true => 1
  | false => 0

/-- Sum modulo 256 (R170). -/
def sumByte (a b : Byte) : Byte := BitVec.ofNat 8 (a.toNat + b.toNat)

/-- Carry (R178): the exact sum is over 255. -/
def carryOut (a b : Byte) : Bool := decide (255 < a.toNat + b.toNat)

/-- Difference modulo 256 (R170), the representative in [0, 255]. -/
def diffByte (a b : Byte) : Byte := BitVec.ofInt 8 ((a.toNat : Int) - (b.toNat : Int))

/-- NOT borrow (R179, R181): the exact difference is not negative. -/
def notBorrow (a b : Byte) : Bool := decide (0 ≤ (a.toNat : Int) - (b.toNat : Int))

/-- The bit 8xy6 shifts out (R180). -/
def lowBitOut (a : Byte) : Byte := a &&& 1

/-- The bit 8xyE shifts out (R182). -/
def highBitOut (a : Byte) : Byte := a >>> 7

/-- VF is written with the flag first, then Vx with the result (R171): with x = F the result stays. -/
def setFlagThenReg (s : State) (x : Nibble) (flag result : Byte) : State := (s.setReg vf flag).setReg x result

end Sys2Proof.Machine
end

