-- ==== Sys2Proof/Machine/Alu.lean ====
section
/-! DEFINITION. Register loads, the ALU and the random draw (`42_alu.md`). Operands are read before anything is
written (R171), and none of these instructions faults. -/

namespace Sys2Proof.Machine

/-- LD Vx, kk, 6xkk (R172). -/
def execLdImm (x : Nibble) (kk : Byte) (s : State) : Host.Outcome State Fault Refusal := .next (s.setReg x kk)

/-- ADD Vx, kk, 7xkk (R173): the carry reaches VF only when `ADD_IMM_SETS_VF` (D5, 90_conflicts.md C7). -/
def execAddImm (x : Nibble) (kk : Byte) (s : State) : Host.Outcome State Fault Refusal :=
  .next
    (match s.cfg.addImmSetsVf with
      | true => setFlagThenReg s x (flagByte (carryOut (s.reg x) kk)) (sumByte (s.reg x) kk)
      | false => s.setReg x (sumByte (s.reg x) kk))

/-- LD Vx, Vy, 8xy0 (R174). -/
def execLdReg (x y : Nibble) (s : State) : Host.Outcome State Fault Refusal := .next (s.setReg x (s.reg y))

/-- OR Vx, Vy, 8xy1 (R175): VF is not reset in any mode (D7). -/
def execOrReg (x y : Nibble) (s : State) : Host.Outcome State Fault Refusal :=
  .next (s.setReg x (s.reg x ||| s.reg y))

/-- AND Vx, Vy, 8xy2 (R176). -/
def execAndReg (x y : Nibble) (s : State) : Host.Outcome State Fault Refusal :=
  .next (s.setReg x (s.reg x &&& s.reg y))

/-- XOR Vx, Vy, 8xy3 (R177). -/
def execXorReg (x y : Nibble) (s : State) : Host.Outcome State Fault Refusal :=
  .next (s.setReg x (s.reg x ^^^ s.reg y))

/-- ADD Vx, Vy, 8xy4 (R178). -/
def execAddReg (x y : Nibble) (s : State) : Host.Outcome State Fault Refusal :=
  .next (setFlagThenReg s x (flagByte (carryOut (s.reg x) (s.reg y))) (sumByte (s.reg x) (s.reg y)))

/-- SUB Vx, Vy, 8xy5 (R179). -/
def execSubReg (x y : Nibble) (s : State) : Host.Outcome State Fault Refusal :=
  .next (setFlagThenReg s x (flagByte (notBorrow (s.reg x) (s.reg y))) (diffByte (s.reg x) (s.reg y)))

/-- SHR Vx, Vy, 8xy6 (R180). -/
def execShr (x y : Nibble) (s : State) : Host.Outcome State Fault Refusal :=
  .next (setFlagThenReg s x (lowBitOut (shiftSource s x y)) (shiftSource s x y >>> 1))

/-- SUBN Vx, Vy, 8xy7 (R181). -/
def execSubn (x y : Nibble) (s : State) : Host.Outcome State Fault Refusal :=
  .next (setFlagThenReg s x (flagByte (notBorrow (s.reg y) (s.reg x))) (diffByte (s.reg y) (s.reg x)))

/-- SHL Vx, Vy, 8xyE (R182). -/
def execShl (x y : Nibble) (s : State) : Host.Outcome State Fault Refusal :=
  .next (setFlagThenReg s x (highBitOut (shiftSource s x y)) (shiftSource s x y <<< 1))

/-- RND Vx, kk, Cxkk (R183): a free byte under the mask. -/
def execRnd (x : Nibble) (kk : Byte) (s : State) : Host.Outcome State Fault Refusal :=
  let r := drawByte s
  .next (r.2.setReg x (r.1 &&& kk))

end Sys2Proof.Machine
end

