-- ==== Sys2Proof/Machine/ControlFlow.lean ====
section
/-! DEFINITION. Jumps, call and return, and the register skips (`41_control_flow.md`). PC already holds the address
of the next instruction when a meaning runs (`10_state.md` R36). -/

namespace Sys2Proof.Machine

/-- RET, 00EE (R141). -/
def execRet (s : State) : Host.Outcome State Fault Refusal :=
  match pop s with
  | .error f => raise f
  | .ok (a, t) => .next (t.setPc a.toNat)

/-- JP nnn, 1nnn (R142). -/
def execJp (nnn : Addr12) (s : State) : Host.Outcome State Fault Refusal := .next (s.setPc nnn.toNat)

/-- CALL nnn, 2nnn (R143). -/
def execCall (nnn : Addr12) (s : State) : Host.Outcome State Fault Refusal :=
  match push s s.pc with
  | .error f => raise f
  | .ok t => .next (t.setPc nnn.toNat)

/-- SE Vx, kk, 3xkk (R144). -/
def execSeImm (x : Nibble) (kk : Byte) (s : State) : Host.Outcome State Fault Refusal :=
  .next (skipIf (decide (s.reg x = kk)) s)

/-- SNE Vx, kk, 4xkk (R145). -/
def execSneImm (x : Nibble) (kk : Byte) (s : State) : Host.Outcome State Fault Refusal :=
  .next (skipIf (decide (s.reg x ≠ kk)) s)

/-- SE Vx, Vy, 5xy0 (R146). -/
def execSeReg (x y : Nibble) (s : State) : Host.Outcome State Fault Refusal :=
  .next (skipIf (decide (s.reg x = s.reg y)) s)

/-- SNE Vx, Vy, 9xy0 (R147). -/
def execSneReg (x y : Nibble) (s : State) : Host.Outcome State Fault Refusal :=
  .next (skipIf (decide (s.reg x ≠ s.reg y)) s)

/-- JP V0, nnn, Bnnn (R148). -/
def execJpV0 (nnn : Addr12) (s : State) : Host.Outcome State Fault Refusal := .next (s.setPc (offsetTarget s nnn))

end Sys2Proof.Machine
end

