-- ==== Sys2Proof/Machine/Display.lean ====
section
/-! DEFINITION. The display instructions (`44_display.md`): thin loops over the framebuffer primitives of
Machine/Ops.lean. -/

namespace Sys2Proof.Machine

/-- CLS, 00E0 (R246): VF is not written. -/
def execCls (s : State) : Host.Outcome State Fault Refusal := .next (displayClear s)

/-- DRW Vx, Vy, n, Dxyn (R247): the coordinates are read before VF is written, and VF is always written. The sprite
bytes are read before the first row is drawn: no row is in RAM, so the order among reads and draws shows nowhere, and
a faulting draw leaves no state to see (R305). -/
def execDrw (x y n : Nibble) (s : State) : Host.Outcome State Fault Refusal :=
  match readBytes n.toNat s s.i.toNat with
  | .error f => raise f
  | .ok bs =>
    let r := drawRows (s.reg x).toNat (s.reg y).toNat bs s.display false
    .next ({ s with display := r.1 }.setReg vf (flagByte r.2))

end Sys2Proof.Machine
end

