-- ==== Sys2Proof/Machine/IndexMemory.lean ====
section
/-! DEFINITION. The index register and the memory transfers (`43_index_memory.md`). The only addressing mode is I plus
a small offset, a natural number that does not wrap (`20_memory.md` R76). -/

namespace Sys2Proof.Machine

/-- LD I, nnn, Annn (R210). -/
def execLdI (nnn : Addr12) (s : State) : Host.Outcome State Fault Refusal := .next (s.setI nnn.toNat)

/-- ADD I, Vx, Fx1E (R211): VF is not written (D11). -/
def execAddI (x : Nibble) (s : State) : Host.Outcome State Fault Refusal :=
  .next (s.setI (indexPlus s (s.reg x).toNat))

/-- LD F, Vx, Fx29 (R212). -/
def execLdF (x : Nibble) (s : State) : Host.Outcome State Fault Refusal :=
  .next (s.setI (fontAddress s.cfg (fontDigit s x)))

/-- LD B, Vx, Fx33 (R213): I is not changed. -/
def execLdB (x : Nibble) (s : State) : Host.Outcome State Fault Refusal :=
  finish (writeBytes (decimalDigits (s.reg x)) s s.i.toNat)

/-- LD [I], Vx, Fx55 (R214): I moves only after every byte was written (D12). -/
def execStRegs (x : Nibble) (s : State) : Host.Outcome State Fault Refusal :=
  match readRegs (x.toNat + 1) s 0 with
  | .error f => raise f
  | .ok bs =>
    match writeBytes bs s s.i.toNat with
    | .error f => raise f
    | .ok t => .next (t.setI (indexAfterTransfer s x))

/-- LD Vx, [I], Fx65 (R215). -/
def execLdRegs (x : Nibble) (s : State) : Host.Outcome State Fault Refusal :=
  match readBytes (x.toNat + 1) s s.i.toNat with
  | .error f => raise f
  | .ok bs =>
    match writeRegs bs s 0 with
    | .error f => raise f
    | .ok t => .next (t.setI (indexAfterTransfer s x))

end Sys2Proof.Machine
end

