-- ==== Sys2Proof/Machine/TimersInput.lean ====
section
/-! DEFINITION. The timer and key instructions (`45_timers_input.md`). -/

namespace Sys2Proof.Machine

/-- SKP Vx, Ex9E (R281): the test reads `locked`, never `live`. -/
def execSkp (x : Nibble) (s : State) : Host.Outcome State Fault Refusal :=
  let p := keyTest s x
  .next (skipIf p.1 p.2)

/-- SKNP Vx, ExA1 (R282). -/
def execSknp (x : Nibble) (s : State) : Host.Outcome State Fault Refusal :=
  let p := keyTest s x
  .next (skipIf (!p.1) p.2)

/-- LD Vx, DT, Fx07 (R277). -/
def execLdVxDt (x : Nibble) (s : State) : Host.Outcome State Fault Refusal := .next (s.setReg x s.dt)

/-- LD Vx, K, Fx0A (R283): Vx is written at the resume (R286), not here. -/
def execLdVxK (x : Nibble) (s : State) : Host.Outcome State Fault Refusal := .next (pauseForKey s x)

/-- LD DT, Vx, Fx15 (R278). -/
def execLdDtVx (x : Nibble) (s : State) : Host.Outcome State Fault Refusal := .next (delaySet s (s.reg x))

/-- LD ST, Vx, Fx18 (R279). -/
def execLdStVx (x : Nibble) (s : State) : Host.Outcome State Fault Refusal := .next (soundSet s (s.reg x))

end Sys2Proof.Machine
end

