-- ==== Sys2Proof/WellFormed.lean ====
section
/-! DEFINITION. The two checks the spec puts on what comes from outside: the bounds a configuration must meet
(`00_scope.md` R6, R7), and which 16-bit words are instructions (`30_encoding.md` R111, the match and mask of each
row). The table is written apart from the decoder, so that the two can be held against each other. -/

namespace Sys2Proof

/-- The bounds of R6 and R7 on the parameters; a configuration outside them is refused (D31, U32). -/
def Config.wellFormed (c : Config) : Bool :=
  decide (c.programStart < c.memSize) && decide (c.memSize ≤ 0x10000)
    && decide (c.fontBase + 80 ≤ c.programStart) && decide (1 ≤ c.stackDepth)

/-- One row of the opcode map: `w` selects the row when `w AND mask = bits` (R111). -/
structure OpcodeRow where
  mnemonic : String
  bits : Word
  mask : Word
deriving DecidableEq, Repr

/-- The row a word selects (R111). -/
def OpcodeRow.selects (r : OpcodeRow) (w : Word) : Bool := decide (w &&& r.mask = r.bits)

/-- The rows of R111 whose opcode is selected by its high nibble alone, and the two zero-operand forms. -/
def primaryRows : List OpcodeRow :=
  [⟨"CLS", 0x00E0, 0xFFFF⟩, ⟨"RET", 0x00EE, 0xFFFF⟩, ⟨"JP_nnn", 0x1000, 0xF000⟩, ⟨"CALL_nnn", 0x2000, 0xF000⟩,
   ⟨"SE_Vx__kk", 0x3000, 0xF000⟩, ⟨"SNE_Vx__kk", 0x4000, 0xF000⟩, ⟨"LD_Vx__kk", 0x6000, 0xF000⟩,
   ⟨"ADD_Vx__kk", 0x7000, 0xF000⟩, ⟨"LD_I__nnn", 0xA000, 0xF000⟩, ⟨"JP_V0__nnn", 0xB000, 0xF000⟩,
   ⟨"RND_Vx__kk", 0xC000, 0xF000⟩, ⟨"DRW_Vx__Vy__n", 0xD000, 0xF000⟩]

/-- The rows of groups 5, 8 and 9, selected by the low nibble (R108, R112). -/
def lowNibbleRows : List OpcodeRow :=
  [⟨"SE_Vx__Vy", 0x5000, 0xF00F⟩, ⟨"LD_Vx__Vy", 0x8000, 0xF00F⟩, ⟨"OR_Vx__Vy", 0x8001, 0xF00F⟩,
   ⟨"AND_Vx__Vy", 0x8002, 0xF00F⟩, ⟨"XOR_Vx__Vy", 0x8003, 0xF00F⟩, ⟨"ADD_Vx__Vy", 0x8004, 0xF00F⟩,
   ⟨"SUB_Vx__Vy", 0x8005, 0xF00F⟩, ⟨"SHR_Vx__Vy", 0x8006, 0xF00F⟩, ⟨"SUBN_Vx__Vy", 0x8007, 0xF00F⟩,
   ⟨"SHL_Vx__Vy", 0x800E, 0xF00F⟩, ⟨"SNE_Vx__Vy", 0x9000, 0xF00F⟩]

/-- The rows of groups E and F, selected by the low byte (R113, R114). -/
def lowByteRows : List OpcodeRow :=
  [⟨"SKP_Vx", 0xE09E, 0xF0FF⟩, ⟨"SKNP_Vx", 0xE0A1, 0xF0FF⟩, ⟨"LD_Vx__DT", 0xF007, 0xF0FF⟩,
   ⟨"LD_Vx__K", 0xF00A, 0xF0FF⟩, ⟨"LD_DT__Vx", 0xF015, 0xF0FF⟩, ⟨"LD_ST__Vx", 0xF018, 0xF0FF⟩,
   ⟨"ADD_I__Vx", 0xF01E, 0xF0FF⟩, ⟨"LD_F__Vx", 0xF029, 0xF0FF⟩, ⟨"LD_B__Vx", 0xF033, 0xF0FF⟩,
   ⟨"LD__I___Vx", 0xF055, 0xF0FF⟩, ⟨"LD_Vx___I", 0xF065, 0xF0FF⟩]

/-- The complete map of recognized opcodes (R111): 34 rows. -/
def opcodeRows : List OpcodeRow := primaryRows ++ lowNibbleRows ++ lowByteRows

/-- Is the word an instruction of the core, by the map of R111? Every other word is unrecognized (R115). -/
def recognized (w : Word) : Bool := opcodeRows.any (fun r => r.selects w)

end Sys2Proof
end

