-- ==== Sys2Proof/Machine/Tick.lean ====
section
/-! DEFINITION. The instruction fetch and the CPU tick (`30_encoding.md` R104, R105). -/

namespace Sys2Proof.Machine

/-- `fetch()` (R104): two bytes big-endian from PC and PC + 1, neither address wrapped (R76), and PC advanced by 2.
A fetch that faults does not advance PC. -/
def fetch (s : State) : Except Fault (Word × State) :=
  match memRead s s.pc.toNat with
  | .error f => .error f
  | .ok hi =>
    match memRead s (s.pc.toNat + 1) with
    | .error f => .error f
    | .ok lo => .ok (joinBytes hi lo, s.setPc (s.pc.toNat + 2))

/-- The fetch, decode and execute of a RUNNING tick (R105). An opcode the decoder rejects raises the fault that
carries its raw value (R109, R301). -/
def fetchAndExecute (s : State) : Host.Outcome State Fault Refusal :=
  match fetch s with
  | .error f => raise f
  | .ok (w, t) =>
    match decode w with
    | .error _ => raise (.unrecognizedOpcode w)
    | .ok i => exec i t

/-- The refusal of a tick, if there is one: a configuration outside R6's bounds (D31), no program loaded (R347), or a
fault recorded (R305). -/
def tickRefusal (s : State) : Option Refusal :=
  match s.cfg.wellFormed with
  | false => some .badConfiguration
  | true =>
    match s.loaded with
    | false => some .notLoaded
    | true =>
      match s.fault with
      | some f => some (.faulted f)
      | none => none

/-- `tick()` (R105, R321): the input snapshot, then a resume attempt while PAUSED (R284), else one instruction. -/
def cpuTick (s : State) : Host.Outcome State Fault Refusal :=
  match tickRefusal s with
  | some r => .refused r
  | none =>
    match s.cpu with
    | .paused => .next (resumeIfEdge (inputLock s))
    | .running => fetchAndExecute (inputLock s)

end Sys2Proof.Machine
end

