-- ==== Sys2Proof/Machine/Interface.lean ====
section
/-! DEFINITION. The host interface (`60_exceptions.md` R320 to R328): program load and reset
(`70_reset_and_hazards.md` R340 to R347), the timer tick, the key operations, the pixel read, and the driving
protocol. -/

namespace Sys2Proof.Machine

/-- `timerTick()` (R322): delay first (D26); refused as a CPU tick is. -/
def timerTick (s : State) : Host.Outcome State Fault Refusal :=
  match tickRefusal s with
  | some r => .refused r
  | none => .next (soundTick (delayTick s))

/-- The reset of R341, before the image is written. RAM is cleared and the font written in one: an unlisted address
reads as the two leave it (`resetByte`). `live` is the host's and stays (R51, D22). `tone` is OFF after every reset
(R51, D29), also where a fault had left it free (R305). -/
def resetCore (s : State) : State :=
  { displayClear (soundClear (delayClear (stackClear s))) with
    ram := []
    v := Vector.replicate 16 0
    i := 0
    pc := BitVec.ofNat 16 s.cfg.programStart
    cpu := .running
    waitReg := 0
    pendingKey := none
    locked := 0
    tone := .off
    fault := none
    loaded := true }

/-- `load(image)` with an image (R341, R344): an image that does not fit raises the fault of its first byte outside
RAM (R346). -/
def loadImage (image : List Byte) (s : State) : Except Fault State :=
  writeBytes image (resetCore s) s.cfg.programStart

/-- `load(image)` and what it returns (R341, R345): false, and no state change, when no image is supplied. -/
def load (image : Option (List Byte)) (s : State) : Host.Outcome (Bool × State) Fault Refusal :=
  match s.cfg.wellFormed with
  | false => .refused .badConfiguration
  | true =>
    match image with
    | none => .next (false, s)
    | some bytes =>
      match loadImage bytes s with
      | .error f => .fault f
      | .ok t => .next (true, t)

/-- A load as an operation of a run: after one that returned false the run does not go on (R345, D21). -/
def loadOp (image : Option (List Byte)) (s : State) : Host.Outcome State Fault Refusal :=
  match load image s with
  | .next (true, t) => .next t
  | .next (false, _) => .refused .noImage
  | .fault f => raise f
  | .refused r => .refused r

/-- `keyDown(k)` (R323); the host cannot deliver a key above 15 (U21). -/
def keyDown (k : Nat) (s : State) : Host.Outcome State Fault Refusal :=
  if k < 16 then .next (pressKey s (BitVec.ofNat 4 k)) else .refused (.noSuchKey k)

/-- `keyUp(k)` (R324). -/
def keyUp (k : Nat) (s : State) : Host.Outcome State Fault Refusal :=
  if k < 16 then .next (releaseKey s (BitVec.ofNat 4 k)) else .refused (.noSuchKey k)

/-- `pixel(x, y)` (R325): `DisplayGet` for the presenter, refused outside the screen (R244, D24). -/
def pixel (s : State) (x y : Nat) : Host.Outcome Bool Fault Refusal :=
  if x ≤ 63 ∧ y ≤ 31 then .next (displayGet s.display x y) else .refused (.noSuchPixel x y)

/-- One operation of the host interface. -/
def hostOp (op : HostOp) (s : State) : Host.Outcome State Fault Refusal :=
  match op with
  | .load image => loadOp image s
  | .cpuTick => cpuTick s
  | .timerTick => timerTick s
  | .keyDown k => keyDown k s
  | .keyUp k => keyUp k s

/-- The host performs the next operation of its schedule, or a CPU tick when the schedule is empty (R327, R328). -/
def nextOp (s : State) : Host.Outcome State Fault Refusal :=
  match s.schedule with
  | [] => cpuTick s
  | op :: rest => hostOp op { s with schedule := rest }

/-- One `executeCycle` of the driving protocol (R327): N CPU ticks, then one timer tick. Its `delay` argument is
host pacing, with no effect on any state. -/
def cycleOps (c : Config) : List HostOp := List.replicate c.cpuTicksPerTimerTick .cpuTick ++ [.timerTick]

/-- Interface operations in a row, as long as each gives a next state. -/
def runOps : List HostOp → State → Host.Outcome State Fault Refusal
  | [], s => .next s
  | op :: ops, s =>
    match hostOp op s with
    | .next t => runOps ops t
    | .fault f => raise f
    | .refused r => .refused r

/-- The state an operation has reached when it faults, in what `afterFault` keeps of it: the events it has emitted by
then. A load faults only at an image byte, after the whole reset, so the stop() of its SoundClear has been sent (R341,
R346, the order by the spec's D22); a CPU tick that faults has emitted nothing, since no instruction both emits and
faults; no other operation faults. That the output of an operation that faults stands, where R305 leaves its partial
effects open, is the model's choice: DESIGN CHOICE, notes/assumptions/24.md; unsafe. -/
def atFault (op : HostOp) (s : State) : State :=
  match op with
  | .load (some _) => resetCore s
  | .load none => s
  | .cpuTick => s
  | .timerTick => s
  | .keyDown _ => s
  | .keyUp _ => s

/-- An operation as the host sees it go on after a fault (R305, R320): the faulted state is a state, in which ticks
are refused and a load starts a new run. -/
def operate (op : HostOp) (s : State) : Host.Outcome State Fault Refusal :=
  match hostOp op s with
  | .next t => .next t
  | .fault f => .next (afterFault f (atFault op s))
  | .refused r => .refused r

/-- The opcode whose bits are `w` in the opcode table's numbering, placed at PC and PC + 1 where both are in RAM. -/
def placeWord (s : State) (nbits w : Nat) : State :=
  match writeBytes (tableBytes nbits w) s s.pc.toNat with
  | .ok t => t
  | .error _ => s

end Sys2Proof.Machine
end

