-- ==== Sys2Proof/Machine/Step.lean ====
section
/-! DEFINITION. One step of the machine: the next operation of the host interface (`00_scope.md` R5). -/

namespace Sys2Proof.Machine

/-- One step: the operation the host performs next, which is a CPU tick unless the schedule says otherwise. -/
def step (s : State) : Host.Outcome State Fault Refusal := nextOp s

/-- The state with one instruction of the opcode table placed where the next CPU tick fetches, in a core that runs:
a program loaded, RUNNING, not faulted, and the next operation a CPU tick. -/
def State.withFetchWord (s : State) (nbits w : Nat) : State :=
  { placeWord s nbits w with schedule := [], cpu := .running, fault := none, loaded := true }

end Sys2Proof.Machine
end

