-- ==== Sys2Proof/Safety.lean ====
section
/-! DEFINITION. What claims about the core are stated in: the parts of the state and which of them two states share
(frames), the invariant of a core in use, the states in which a CPU tick runs an instruction, the pixels of a sprite,
and which states differ only in what no instruction can see. -/

namespace Sys2Proof.Machine

/-- A part of the state, as fine as the spec addresses it. -/
inductive Part where
  | cfg
  | reg (r : Nibble)
  | index
  | pc
  | slot (k : Nat)
  | sp
  | delay
  | sound
  /-- the byte of RAM at an address -/
  | byte (a : Nat)
  /-- a row of the display -/
  | row (y : Nat)
  | live
  | locked
  | run
  | waitReg
  | pendingKey
  | tone
  | fault
  | loaded
  | events
  | draws
  | schedule
deriving DecidableEq, Repr

/-- The part holds the same in both states. A byte of RAM is what `MemRead` gives there. -/
def Part.same (p : Part) (s t : State) : Prop :=
  match p with
  | .cfg => t.cfg = s.cfg
  | .reg r => t.reg r = s.reg r
  | .index => t.i = s.i
  | .pc => t.pc = s.pc
  | .slot k => t.stack[k]? = s.stack[k]?
  | .sp => t.sp = s.sp
  | .delay => t.dt = s.dt
  | .sound => t.st = s.st
  | .byte a => memRead t a = memRead s a
  | .row y => t.display[y]? = s.display[y]?
  | .live => t.live = s.live
  | .locked => t.locked = s.locked
  | .run => t.cpu = s.cpu
  | .waitReg => t.waitReg = s.waitReg
  | .pendingKey => t.pendingKey = s.pendingKey
  | .tone => t.tone = s.tone
  | .fault => t.fault = s.fault
  | .loaded => t.loaded = s.loaded
  | .events => t.events = s.events
  | .draws => t.draws = s.draws
  | .schedule => t.schedule = s.schedule

/-- The frame of a step from `s` to `t`: every part outside `writes` is unchanged, every byte of RAM, register, stack
slot and display row among them. -/
def Frame (writes : Part → Prop) (s t : State) : Prop := ∀ p, ¬ writes p → p.same s t

/-- What holds of a core in use: the configuration is within its bounds (R6), RAM is in its canonical form and inside
`MEM_SIZE`, the stack has `STACK_DEPTH` slots and `SP` is within them (R37), the tone is ON exactly when ST is
positive (R275), and a key is latched only while PAUSED (R47). -/
structure Inv (s : State) : Prop where
  config : s.cfg.wellFormed = true
  ram : Memory.wf s.cfg s.ram
  slots : s.stack.length = s.cfg.stackDepth
  depth : s.sp ≤ s.cfg.stackDepth
  tone : s.tone = .on ↔ 0 < s.st.toNat
  latch : s.pendingKey ≠ none → s.cpu = .paused

/-- A CPU tick or timer tick has a step here (R305, R347, D31): the configuration is within its bounds, a program is
loaded and no fault is recorded. -/
structure Ticks (s : State) : Prop where
  config : s.cfg.wellFormed = true
  loaded : s.loaded = true
  noFault : s.fault = none

/-- A CPU tick fetches an instruction here (R105). -/
structure Ready (s : State) : Prop extends Ticks s where
  running : s.cpu = .running

/-- The state an instruction's meaning starts from in a tick of `s` (R105, R36): keys locked, PC advanced by 2. -/
def fetched (s : State) : State := (inputLock s).setPc (s.pc.toNat + 2)

/-- Does a sprite byte drawn at `x` light column `c`: bit 7 at column `x mod 64`, the columns past 63 dropped (R240 to
R242). -/
def spritePixel (x : Nat) (b : Byte) (c : Nat) : Bool :=
  decide (x % 64 ≤ c) && decide (c < x % 64 + 8) && b.getLsbD (7 - (c - x % 64))

/-- The source register of 8xy6 and 8xyE in plain words (R10): Vy when overridden so, or when not overridden and the
mode is CHIP_8. -/
def ShiftsVy (c : Config) : Prop := c.flags.shiftOverride.getD (decide (c.flags.mode = .chip8)) = true

/-- I moves after Fx55 and Fx65 (R10): when overridden so, or when not overridden and the mode is not SUPER_CHIP. -/
def IncrementsI (c : Config) : Prop := c.flags.incrementOverride.getD (decide (c.flags.mode ≠ .superChip)) = true

/-- Apply a change to the next state, if there is one. -/
def onNext (f : State → State) (o : Host.Outcome State Fault Refusal) : Host.Outcome State Fault Refusal :=
  match o with
  | .next t => .next (f t)
  | .fault e => .fault e
  | .refused r => .refused r

/-- Two states that differ at most in stack slots at and above `SP` (R39). -/
structure SameBelowSp (s t : State) : Prop where
  slots : ∀ k, k < s.sp → t.stack[k]? = s.stack[k]?
  length : t.stack.length = s.stack.length
  rest : { t with stack := s.stack } = s

/-- Both outcomes are next states related by `R`, or they are the same fault or the same refusal. -/
def OutcomesRelated (R : State → State → Prop) (o p : Host.Outcome State Fault Refusal) : Prop :=
  match o, p with
  | .next s, .next t => R s t
  | .fault e, .fault f => e = f
  | .refused a, .refused b => a = b
  | _, _ => False

end Sys2Proof.Machine
end

