-- ==== Sys2Proof/Certificates/Slice0/Obligations.lean ====
section
/-! DEFINITION. The statements for the provers. Each says what an instruction, an operation of the host interface or
the machine does, from the numbered rules of spec/. `Frame w s t` says that every part of the state outside `w` is
unchanged: every register, stack slot, byte of RAM and display row among them. -/

open Sys2Proof Sys2Proof.Machine

/-! ### Encoding and decoding -/

/-- Opcodes written out from the spec's encodings, one or more per family, decode to what they stand for. -/
def Obligations.SampleOpcodesDecode : Prop :=
  decode 0x00E0 = .ok .cls ∧ decode 0x00EE = .ok .ret ∧ decode 0x2210 = .ok (.call 0x210) ∧
  decode 0x3342 = .ok (.seImm 3 0x42) ∧ decode 0x9120 = .ok (.sneReg 1 2) ∧ decode 0x812E = .ok (.shl 1 2) ∧
  decode 0xC30F = .ok (.rnd 3 0x0F) ∧ decode 0xD015 = .ok (.drw 0 1 5) ∧ decode 0xE1A1 = .ok (.sknp 1) ∧
  decode 0xF30A = .ok (.ldVxK 3) ∧ decode 0xF265 = .ok (.ldRegs 2) ∧
  decode 0x5121 = .error (.unrecognizedOpcode 0x5121) ∧ decode 0x8128 = .error (.unrecognizedOpcode 0x8128)

/-- Decoding the opcode of any instruction, with every operand at every value, gives the instruction back. -/
def Obligations.DecodeOfEncode : Prop := ∀ i : Instr, decode (encode i) = .ok i

/-- A recognized opcode is the opcode of the instruction it decodes to: no bit of it is dropped. -/
def Obligations.EncodeOfDecode : Prop := ∀ (w : Word) (i : Instr), decode w = .ok i → encode i = w

/-- R111: the map has 34 rows; a recognized word selects exactly one, the row of the instruction it decodes to, and an
unrecognized word selects none. -/
def Obligations.OpcodeMapSelectsOneRow : Prop :=
  opcodeRows.length = 34 ∧
  ∀ w : Word,
    match decode w with
    | .ok i => ∃ r, opcodeRows.filter (fun q => q.selects w) = [r] ∧ r.mnemonic = i.mnemonic
    | .error e => e = .unrecognizedOpcode w ∧ opcodeRows.filter (fun q => q.selects w) = []

/-- The unrecognized words, group by group (R115, R116, R108, R112 to R114). -/
def Obligations.UnrecognizedWordsByGroup : Prop :=
  ∀ w : Word, decode w = .error (.unrecognizedOpcode w) ↔
    (w.toNat / 4096 = 0x0 ∧ w ≠ 0x00E0 ∧ w ≠ 0x00EE) ∨
    (w.toNat / 4096 = 0x5 ∧ w.toNat % 16 ≠ 0) ∨
    (w.toNat / 4096 = 0x8 ∧ w.toNat % 16 ∈ [0x8, 0x9, 0xA, 0xB, 0xC, 0xD, 0xF]) ∨
    (w.toNat / 4096 = 0x9 ∧ w.toNat % 16 ≠ 0) ∨
    (w.toNat / 4096 = 0xE ∧ w.toNat % 256 ∉ [0x9E, 0xA1]) ∨
    (w.toNat / 4096 = 0xF ∧ w.toNat % 256 ∉ [0x07, 0x0A, 0x15, 0x18, 0x1E, 0x29, 0x33, 0x55, 0x65])

/-! ### Fetch and step -/

/-- The fetch reads PC and PC + 1, big-endian and unwrapped, advances PC by 2 modulo 0x10000, and changes nothing else;
a read outside RAM is its fault, the first one first (R104, R73). That PC + 1 is not wrapped is the spec's own decision
D13. -/
def Obligations.FetchReadsBigEndian : Prop :=
  ∀ s : State,
    (∀ hi lo, memRead s s.pc.toNat = .ok hi → memRead s (s.pc.toNat + 1) = .ok lo →
      ∃ w t, fetch s = .ok (w, t) ∧ w.toNat = hi.toNat * 256 + lo.toNat ∧
        t.pc.toNat = (s.pc.toNat + 2) % 65536 ∧ Frame (fun p => p = .pc) s t) ∧
    (s.cfg.memSize ≤ s.pc.toNat → fetch s = .error (.memoryRange s.pc.toNat)) ∧
    (s.pc.toNat + 1 = s.cfg.memSize → fetch s = .error (.memoryRange (s.pc.toNat + 1)))

/-- When the bytes at PC decode to an instruction, a step in which the host calls the CPU tick is that instruction's
meaning, on the state with the keys locked and PC advanced by 2 (R105, R36, R280). -/
def Obligations.StepRunsDecodedInstruction : Prop :=
  ∀ (s : State) (hi lo : Byte) (w : Word) (i : Instr),
    Ready s → memRead s s.pc.toNat = .ok hi → memRead s (s.pc.toNat + 1) = .ok lo →
    w.toNat = hi.toNat * 256 + lo.toNat → decode w = .ok i →
    (s.schedule = [] → step s = exec i (fetched s)) ∧
    (∀ rest, s.schedule = .cpuTick :: rest → step s = exec i { fetched s with schedule := rest }) ∧
    (fetched s).locked = s.live ∧ (fetched s).pc.toNat = (s.pc.toNat + 2) % 65536 ∧
    Frame (fun p => p = .locked ∨ p = .pc) s (fetched s)

/-- A step performs the first operation of the host's schedule, whichever it is, on the state without it; with an empty
schedule it is a CPU tick. That the order of the host's operations stands in State is the model's choice (log entry 9);
that they are the only steps is R5, R327 and R328. -/
def Obligations.StepPerformsScheduledOperation : Prop :=
  ∀ s : State,
    (s.schedule = [] → step s = hostOp .cpuTick s) ∧
    (∀ op rest, s.schedule = op :: rest → step s = hostOp op { s with schedule := rest })

/-- When the bytes at PC are no instruction, the tick raises UnrecognizedOpcode with the raw word (R109, R301), and when
one of them is outside RAM it raises MemoryRange of the first that is (R104, R302): with an empty schedule, and with a
CPU tick first in it (log entry 9). -/
def Obligations.StepRaisesFetchFaults : Prop :=
  ∀ s : State, Ready s →
    (∀ (hi lo : Byte) (w : Word), memRead s s.pc.toNat = .ok hi → memRead s (s.pc.toNat + 1) = .ok lo →
      w.toNat = hi.toNat * 256 + lo.toNat → decode w = .error (.unrecognizedOpcode w) →
      (s.schedule = [] → step s = .fault (.unrecognizedOpcode w)) ∧
      (∀ rest, s.schedule = .cpuTick :: rest → step s = .fault (.unrecognizedOpcode w))) ∧
    (s.cfg.memSize ≤ s.pc.toNat + 1 →
      (s.schedule = [] → step s = .fault (.memoryRange (max s.pc.toNat s.cfg.memSize))) ∧
      (∀ rest, s.schedule = .cpuTick :: rest → step s = .fault (.memoryRange (max s.pc.toNat s.cfg.memSize))))

/-- By the spec's own decision D16 (R284, R286): a PAUSED tick snapshots the keys and does nothing else, unless an edge is latched: then it stores the
key, sets RUNNING and forgets the edge, and executes no instruction. -/
def Obligations.PausedTickResumesOnEdge : Prop :=
  ∀ s : State, Ticks s → s.schedule = [] → s.cpu = .paused →
    ∃ t, step s = .next t ∧ t.locked = s.live ∧
      (s.pendingKey = none → Frame (fun p => p = .locked) s t) ∧
      (∀ k, s.pendingKey = some k →
        (t.reg s.waitReg).toNat = k.toNat ∧ t.cpu = .running ∧ t.pendingKey = none ∧
        Frame (fun p => p = .locked ∨ p = .run ∨ p = .pendingKey ∨ p = .reg s.waitReg) s t)

/-- A CPU tick and a timer tick are refused before the first load (R347, D20), in a faulted core (R305, D17), and, as is
a load, under a configuration outside its bounds (D31, U32). Which refusal is named when several apply (the
configuration, then the missing load, then the fault) is the model's choice (log entry 20). -/
def Obligations.TicksRefusedOutsideARun : Prop :=
  ∀ s : State,
    (s.cfg.wellFormed = false →
      hostOp .cpuTick s = .refused .badConfiguration ∧ hostOp .timerTick s = .refused .badConfiguration ∧
      (∀ image, hostOp (.load image) s = .refused .badConfiguration)) ∧
    (s.cfg.wellFormed = true → s.loaded = false →
      hostOp .cpuTick s = .refused .notLoaded ∧ hostOp .timerTick s = .refused .notLoaded) ∧
    (∀ f, s.cfg.wellFormed = true → s.loaded = true → s.fault = some f →
      hostOp .cpuTick s = .refused (.faulted f) ∧ hostOp .timerTick s = .refused (.faulted f))

/-- By the spec's own decision D17 (R305, R49, R320): a fault is recorded, halts the core, and a program load starts it
again. What has been emitted by then stands: nothing by an operation that is no load, which is the model's choice (log
entries 6 and 24). -/
def Obligations.FaultHaltsUntilLoad : Prop :=
  ∀ (s : State) (op : HostOp) (f : Fault), s.cfg.wellFormed = true → hostOp op s = .fault f →
    ∃ t, operate op s = .next t ∧ t.fault = some f ∧ t.cfg = s.cfg ∧
      ((∀ image, op ≠ .load image) → t.events = s.events) ∧
      operate .cpuTick t = .refused (.faulted f) ∧ operate .timerTick t = .refused (.faulted f) ∧
      (∀ image : List Byte, s.cfg.programStart + image.length ≤ s.cfg.memSize →
        ∃ u, operate (.load (some image)) t = .next u ∧ Ready u)

/-! ### Reset and load -/

/-- The state right after reset, before an image is placed. The values of `live`, `locked`, `cpu`, `waitReg`,
`pendingKey`, `tone` and `fault` are the spec's own decisions D22, D29 and D17, `FONT_BASE` is its D2, and the font is
general knowledge (D27); the MODE is a free value. That RAM holds no image and the core counts as loaded is the model's
choice (log entry 1), and so are the empty events and schedule (log entry 10). -/
def Obligations.ResetStateValues : Prop :=
  (∀ r, State.reset.reg r = 0) ∧ State.reset.i = 0 ∧ State.reset.pc = 0x200 ∧ State.reset.sp = 0 ∧
  State.reset.stack = List.replicate 16 0 ∧ State.reset.dt = 0 ∧ State.reset.st = 0 ∧ State.reset.tone = .off ∧
  (∀ y, y < 32 → State.reset.display[y]? = some 0) ∧ State.reset.live = 0 ∧ State.reset.locked = 0 ∧
  State.reset.cpu = .running ∧ State.reset.waitReg = 0 ∧ State.reset.pendingKey = none ∧ State.reset.fault = none ∧
  State.reset.cfg.memSize = 4096 ∧ State.reset.loaded = true ∧ State.reset.events = [] ∧ State.reset.schedule = [] ∧
  (∀ j b, State.reset.cfg.font[j]? = some b → memRead State.reset j = .ok b) ∧
  ([0, 1, 2, 3, 4, 0x4B, 0x4C, 0x4D, 0x4E, 0x4F].map (fun a => memRead State.reset a) =
    [0xF0, 0x90, 0x90, 0x90, 0xF0, 0xF0, 0x80, 0xF0, 0x80, 0x80].map .ok) ∧
  (∀ a, 80 ≤ a → a < 4096 → memRead State.reset a = .ok 0)

/-- What every piece of state holds after a load of an image that fits (R51, R344). The values of `live`, `locked`,
`cpu`, `waitReg`, `pendingKey`, `tone` and `fault` are the spec's own decisions D22, D29 and D17. The core then runs, also
after its first load (R320, R347); that the counted draws and the schedule stay is the model's choice (log entries 5 and
9). -/
def Obligations.LoadLeavesResetValues : Prop :=
  State.reset.live = 0 ∧
  ∀ (s : State) (image : List Byte), s.cfg.wellFormed = true →
    s.cfg.programStart + image.length ≤ s.cfg.memSize →
    ∃ t, load (some image) s = .next (true, t) ∧ hostOp (.load (some image)) s = .next t ∧
      (∀ r, t.reg r = 0) ∧ t.i = 0 ∧ t.pc.toNat = s.cfg.programStart ∧
      t.stack.length = s.cfg.stackDepth ∧ (∀ a ∈ t.stack, a = 0) ∧ t.sp = 0 ∧
      t.dt = 0 ∧ t.st = 0 ∧ t.tone = .off ∧
      (∀ j b, image[j]? = some b → memRead t (s.cfg.programStart + j) = .ok b) ∧
      (∀ j b, s.cfg.font[j]? = some b → memRead t (s.cfg.fontBase + j) = .ok b) ∧
      (∀ a, a < s.cfg.memSize → ¬(s.cfg.fontBase ≤ a ∧ a < s.cfg.fontBase + 80) →
        ¬(s.cfg.programStart ≤ a ∧ a < s.cfg.programStart + image.length) → memRead t a = .ok 0) ∧
      (∀ y, y < 32 → t.display[y]? = some 0) ∧ t.live = s.live ∧ t.locked = 0 ∧ t.cpu = .running ∧
      t.waitReg = 0 ∧ t.pendingKey = none ∧ t.fault = none ∧ t.cfg = s.cfg ∧
      t.events = s.events ++ (if 0 < s.st.toNat then [.stop] else []) ∧
      t.loaded = true ∧ Ready t ∧ t.draws = s.draws ∧ t.schedule = s.schedule

/-- By the spec's own decision D21 (R346): an image longer than `MEM_SIZE - PROGRAM_START` bytes raises MemoryRange(MEM_SIZE) and leaves the core
faulted, with the stop() sent that its reset emits for a positive ST (R341, the order by D22); that an output sent before
the fault stands is the model's choice (log entry 24). -/
def Obligations.LoadOfTooLongImageFaults : Prop :=
  ∀ (s : State) (image : List Byte), s.cfg.wellFormed = true →
    s.cfg.memSize - s.cfg.programStart < image.length →
    hostOp (.load (some image)) s = .fault (.memoryRange s.cfg.memSize) ∧
    ∃ t, operate (.load (some image)) s = .next t ∧ t.fault = some (.memoryRange s.cfg.memSize) ∧
      t.events = s.events ++ (if 0 < s.st.toNat then [.stop] else [])

/-- By the spec's own decision D21 (R345): a load with no image returns false and changes no state, and a run that continues after it is refused. -/
def Obligations.LoadWithoutImageChangesNothing : Prop :=
  ∀ s : State, s.cfg.wellFormed = true →
    load none s = .next (false, s) ∧ hostOp (.load none) s = .refused .noImage

/-! ### The whole machine -/

/-- Every step, from any state that meets the invariant, leads to one that meets it. -/
def Obligations.StepKeepsInvariant : Prop := ∀ s t : State, Inv s → step s = .next t → Inv t

/-- The state right after reset meets the invariant. -/
def Obligations.ResetMeetsInvariant : Prop := Inv State.reset

/-- R275: after every operation the tone is ON exactly when ST is positive, provided it was before; it is after
reset. -/
def Obligations.ToneFollowsSoundTimer : Prop :=
  (State.reset.tone = .on ↔ 0 < State.reset.st.toNat) ∧
  ∀ s t : State, (s.tone = .on ↔ 0 < s.st.toNat) → step s = .next t → (t.tone = .on ↔ 0 < t.st.toNat)

/-- R274: a step adds events after those emitted before; stop() is among them exactly once when the step takes ST from
positive to 0, and not at all otherwise. -/
def Obligations.StopOncePerTransition : Prop :=
  ∀ s t : State, step s = .next t →
    ∃ new, t.events = s.events ++ new ∧
      new.count .stop = (if 0 < s.st.toNat ∧ t.st.toNat = 0 then 1 else 0)

/-- A step enters PAUSED only by executing Fx0A, and leaves it only on a latched edge or by a program load (R46, R283,
R286, R341). -/
def Obligations.OnlyKeyWaitPauses : Prop :=
  ∀ s t : State, step s = .next t →
    (s.cpu = .running → t.cpu = .paused →
      ∃ hi lo w x, memRead s s.pc.toNat = .ok hi ∧ memRead s (s.pc.toNat + 1) = .ok lo ∧
        w.toNat = hi.toNat * 256 + lo.toNat ∧ decode w = .ok (.ldVxK x) ∧ t.waitReg = x) ∧
    (s.cpu = .paused → t.cpu = .running →
      (∃ k, s.pendingKey = some k ∧ (t.reg s.waitReg).toNat = k.toNat) ∨
      (∃ image, s.schedule.head? = some (.load image)))

/-- No step changes the configuration (R48), and only a program load clears a recorded fault: R49 by the spec's own
decision D17. That no step that answers a next state records a fault is the model's choice: a fault is an outcome (log
entry 7), and `operate` records it. -/
def Obligations.ConfigurationNeverChanges : Prop :=
  ∀ s t : State, step s = .next t →
    t.cfg = s.cfg ∧
    (t.fault = s.fault ∨ (t.fault = none ∧ ∃ image, s.schedule.head? = some (.load image)))

/-- No instruction reads the live mask: with another live mask it does the same, and leaves that mask (R45, R280). -/
def Obligations.InstructionsDoNotReadLiveKeys : Prop :=
  ∀ (i : Instr) (s : State) (m : Keys),
    exec i { s with live := m } = onNext (fun t => { t with live := m }) (exec i s) ∧
    ∀ t, exec i s = .next t → t.live = s.live

/-- R37, R39: the stack keeps its `STACK_DEPTH` slots and SP stays within them; only CALL and RET use it: every other
instruction leaves it, and does the same with any other stack; and no instruction can tell apart two states that differ
only in stack slots at and above SP. -/
def Obligations.SlotsAboveSpAreUnobservable : Prop :=
  ∀ (i : Instr) (s : State),
    (∀ u, exec i s = .next u → u.stack.length = s.stack.length ∧
      (s.sp ≤ s.cfg.stackDepth → u.sp ≤ s.cfg.stackDepth) ∧
      (i ≠ .ret → (∀ nnn, i ≠ .call nnn) → u.stack = s.stack ∧ u.sp = s.sp)) ∧
    (i ≠ .ret → (∀ nnn, i ≠ .call nnn) → ∀ k n,
      exec i { s with stack := k, sp := n } = onNext (fun t => { t with stack := k, sp := n }) (exec i s)) ∧
    ∀ t, SameBelowSp s t → OutcomesRelated SameBelowSp (exec i s) (exec i t)

/-- No instruction is refused, and each fault of an instruction has its cause: the full or empty stack, or the lowest
address at or above `MEM_SIZE` that the instruction accesses (R302 to R304, R307). -/
def Obligations.InstructionFaultsHaveTheirCause : Prop :=
  ∀ (i : Instr) (s : State),
    (∀ r, exec i s ≠ .refused r) ∧
    (∀ f, exec i s = .fault f →
      (i = .ret ∧ s.sp = 0 ∧ f = .stackUnderflow) ∨
      (∃ nnn, i = .call nnn ∧ s.cfg.stackDepth ≤ s.sp ∧ f = .stackOverflow) ∨
      (∃ n, 0 < n ∧ s.cfg.memSize < s.i.toNat + n ∧ f = .memoryRange (max s.i.toNat s.cfg.memSize) ∧
        ((∃ x y k, i = .drw x y k ∧ n = k.toNat) ∨ (∃ x, i = .ldB x ∧ n = 3) ∨
         (∃ x, i = .stRegs x ∧ n = x.toNat + 1) ∨ (∃ x, i = .ldRegs x ∧ n = x.toNat + 1))))

/-! ### Control flow -/

/-- RET (R141). That the popped slot keeps its value is the spec's own decision D25 (log entry 12). -/
def Obligations.ReturnPopsIntoPc : Prop :=
  (∀ w, decode w = .ok .ret ↔ w = 0x00EE) ∧
  ∀ s : State,
    (∀ a, 0 < s.sp → s.stack[s.sp - 1]? = some a →
      ∃ t, exec .ret s = .next t ∧ t.pc = a ∧ t.sp = s.sp - 1 ∧ Frame (fun p => p = .pc ∨ p = .sp) s t) ∧
    (s.sp = 0 → exec .ret s = .fault .stackUnderflow)

/-- R142: JP nnn. -/
def Obligations.JumpSetsPc : Prop :=
  ∀ (s : State) (nnn : Addr12),
    encode (.jp nnn) = 0x1000 ||| nnn.zeroExtend 16 ∧
    ∃ t, exec (.jp nnn) s = .next t ∧ t.pc.toNat = nnn.toNat ∧ Frame (fun p => p = .pc) s t

/-- R143: CALL nnn. -/
def Obligations.CallPushesAndJumps : Prop :=
  ∀ (s : State) (nnn : Addr12),
    encode (.call nnn) = 0x2000 ||| nnn.zeroExtend 16 ∧
    (s.sp < s.cfg.stackDepth → s.stack.length = s.cfg.stackDepth →
      ∃ t, exec (.call nnn) s = .next t ∧ t.stack[s.sp]? = some s.pc ∧ t.sp = s.sp + 1 ∧
        t.pc.toNat = nnn.toNat ∧ Frame (fun p => p = .pc ∨ p = .sp ∨ p = .slot s.sp) s t) ∧
    (s.sp = s.cfg.stackDepth → exec (.call nnn) s = .fault .stackOverflow)

/-- A subroutine that returns at once: RET after CALL comes back to the instruction after the CALL, with the stack as
deep as before and nothing changed but the slot used (R141, R143). -/
def Obligations.CallThenReturnComesBack : Prop :=
  ∀ (s : State) (nnn : Addr12), s.sp < s.cfg.stackDepth → s.stack.length = s.cfg.stackDepth →
    ∃ t u, exec (.call nnn) s = .next t ∧ exec .ret t = .next u ∧ Frame (fun p => p = .slot s.sp) s u

/-- R144, R145: SE and SNE with an immediate. -/
def Obligations.SkipOnImmediate : Prop :=
  ∀ (s : State) (x : Nibble) (kk : Byte),
    encode (.seImm x kk) = 0x3000 ||| (x.zeroExtend 16 <<< 8) ||| kk.zeroExtend 16 ∧
    encode (.sneImm x kk) = 0x4000 ||| (x.zeroExtend 16 <<< 8) ||| kk.zeroExtend 16 ∧
    (∃ t, exec (.seImm x kk) s = .next t ∧
      t.pc.toNat = (s.pc.toNat + if (s.reg x).toNat = kk.toNat then 2 else 0) % 65536 ∧
      Frame (fun p => p = .pc) s t) ∧
    (∃ t, exec (.sneImm x kk) s = .next t ∧
      t.pc.toNat = (s.pc.toNat + if (s.reg x).toNat = kk.toNat then 0 else 2) % 65536 ∧
      Frame (fun p => p = .pc) s t)

/-- R146, R147: SE and SNE with a register; the low nibble of the opcode must be 0. -/
def Obligations.SkipOnRegister : Prop :=
  ∀ (s : State) (x y : Nibble),
    encode (.seReg x y) = 0x5000 ||| (x.zeroExtend 16 <<< 8) ||| (y.zeroExtend 16 <<< 4) ∧
    encode (.sneReg x y) = 0x9000 ||| (x.zeroExtend 16 <<< 8) ||| (y.zeroExtend 16 <<< 4) ∧
    (∀ n : Nibble, n ≠ 0 →
      decode (encode (.seReg x y) ||| n.zeroExtend 16) =
        .error (.unrecognizedOpcode (encode (.seReg x y) ||| n.zeroExtend 16)) ∧
      decode (encode (.sneReg x y) ||| n.zeroExtend 16) =
        .error (.unrecognizedOpcode (encode (.sneReg x y) ||| n.zeroExtend 16))) ∧
    (∃ t, exec (.seReg x y) s = .next t ∧
      t.pc.toNat = (s.pc.toNat + if (s.reg x).toNat = (s.reg y).toNat then 2 else 0) % 65536 ∧
      Frame (fun p => p = .pc) s t) ∧
    (∃ t, exec (.sneReg x y) s = .next t ∧
      t.pc.toNat = (s.pc.toNat + if (s.reg x).toNat = (s.reg y).toNat then 0 else 2) % 65536 ∧
      Frame (fun p => p = .pc) s t)

/-- JP V0, nnn (R148). That the offset register is V0 in every mode is the spec's own decision D8. The sum never exceeds
0x10FE. -/
def Obligations.JumpAddsV0 : Prop :=
  ∀ (s : State) (nnn : Addr12),
    encode (.jpV0 nnn) = 0xB000 ||| nnn.zeroExtend 16 ∧
    ∃ t, exec (.jpV0 nnn) s = .next t ∧ t.pc.toNat = nnn.toNat + (s.reg 0).toNat ∧ t.pc.toNat ≤ 0x10FE ∧
      Frame (fun p => p = .pc) s t

/-! ### Register loads, ALU and random -/

/-- R172, R174: LD Vx, kk and LD Vx, Vy. -/
def Obligations.LoadRegisterValues : Prop :=
  ∀ (s : State) (x y : Nibble) (kk : Byte),
    encode (.ldImm x kk) = 0x6000 ||| (x.zeroExtend 16 <<< 8) ||| kk.zeroExtend 16 ∧
    encode (.ldReg x y) = 0x8000 ||| (x.zeroExtend 16 <<< 8) ||| (y.zeroExtend 16 <<< 4) ∧
    (∃ t, exec (.ldImm x kk) s = .next t ∧ t.reg x = kk ∧ Frame (fun p => p = .reg x) s t) ∧
    (∃ t, exec (.ldReg x y) s = .next t ∧ t.reg x = s.reg y ∧ Frame (fun p => p = .reg x) s t)

/-- R173: ADD Vx, kk, stated for both values of `ADD_IMM_SETS_VF`. With `ADD_IMM_SETS_VF` false VF is written only as the destination; with it true VF gets the
carry, and x = F ends as the sum. -/
def Obligations.AddImmediateWraps : Prop :=
  ∀ (s : State) (x : Nibble) (kk : Byte),
    encode (.addImm x kk) = 0x7000 ||| (x.zeroExtend 16 <<< 8) ||| kk.zeroExtend 16 ∧
    ∃ t, exec (.addImm x kk) s = .next t ∧
      (t.reg x).toNat = ((s.reg x).toNat + kk.toNat) % 256 ∧
      (s.cfg.addImmSetsVf = true → x ≠ 0xF →
        (t.reg 0xF).toNat = if 255 < (s.reg x).toNat + kk.toNat then 1 else 0) ∧
      Frame (fun p => p = .reg x ∨ (s.cfg.addImmSetsVf = true ∧ p = .reg 0xF)) s t

/-- OR, AND and XOR, bit by bit (R175 to R177). That VF is written only as the destination is the spec's own decision
D7. -/
def Obligations.LogicalOperations : Prop :=
  ∀ (s : State) (x y : Nibble),
    encode (.orReg x y) = 0x8001 ||| (x.zeroExtend 16 <<< 8) ||| (y.zeroExtend 16 <<< 4) ∧
    encode (.andReg x y) = 0x8002 ||| (x.zeroExtend 16 <<< 8) ||| (y.zeroExtend 16 <<< 4) ∧
    encode (.xorReg x y) = 0x8003 ||| (x.zeroExtend 16 <<< 8) ||| (y.zeroExtend 16 <<< 4) ∧
    (∃ t, exec (.orReg x y) s = .next t ∧
      (∀ j, (t.reg x).getLsbD j = ((s.reg x).getLsbD j || (s.reg y).getLsbD j)) ∧ Frame (fun p => p = .reg x) s t) ∧
    (∃ t, exec (.andReg x y) s = .next t ∧
      (∀ j, (t.reg x).getLsbD j = ((s.reg x).getLsbD j && (s.reg y).getLsbD j)) ∧ Frame (fun p => p = .reg x) s t) ∧
    (∃ t, exec (.xorReg x y) s = .next t ∧
      (∀ j, (t.reg x).getLsbD j = ((s.reg x).getLsbD j ^^ (s.reg y).getLsbD j)) ∧ Frame (fun p => p = .reg x) s t)

/-- R178: ADD Vx, Vy; VF is the carry unless it is the destination, which ends as the sum (R171). -/
def Obligations.AddSetsCarry : Prop :=
  ∀ (s : State) (x y : Nibble),
    encode (.addReg x y) = 0x8004 ||| (x.zeroExtend 16 <<< 8) ||| (y.zeroExtend 16 <<< 4) ∧
    ∃ t, exec (.addReg x y) s = .next t ∧
      (t.reg x).toNat = ((s.reg x).toNat + (s.reg y).toNat) % 256 ∧
      (x ≠ 0xF → (t.reg 0xF).toNat = if 255 < (s.reg x).toNat + (s.reg y).toNat then 1 else 0) ∧
      Frame (fun p => p = .reg x ∨ p = .reg 0xF) s t

/-- R179, R181: SUB and SUBN; VF is NOT borrow unless it is the destination, which ends as the difference (R171). -/
def Obligations.SubtractSetsNotBorrow : Prop :=
  ∀ (s : State) (x y : Nibble),
    encode (.subReg x y) = 0x8005 ||| (x.zeroExtend 16 <<< 8) ||| (y.zeroExtend 16 <<< 4) ∧
    encode (.subn x y) = 0x8007 ||| (x.zeroExtend 16 <<< 8) ||| (y.zeroExtend 16 <<< 4) ∧
    (∃ t, exec (.subReg x y) s = .next t ∧
      (t.reg x).toNat = (256 + (s.reg x).toNat - (s.reg y).toNat) % 256 ∧
      (x ≠ 0xF → (t.reg 0xF).toNat = if (s.reg y).toNat ≤ (s.reg x).toNat then 1 else 0) ∧
      Frame (fun p => p = .reg x ∨ p = .reg 0xF) s t) ∧
    (∃ t, exec (.subn x y) s = .next t ∧
      (t.reg x).toNat = (256 + (s.reg y).toNat - (s.reg x).toNat) % 256 ∧
      (x ≠ 0xF → (t.reg 0xF).toNat = if (s.reg x).toNat ≤ (s.reg y).toNat then 1 else 0) ∧
      Frame (fun p => p = .reg x ∨ p = .reg 0xF) s t)

/-- SHR and SHL by one, from Vy or from Vx as the mode and its override say (R10, R180, R182). That VF is the bit shifted
out, unless it is the destination, is the spec's own decision D6. -/
def Obligations.ShiftsByOne : Prop :=
  ∀ (s : State) (x y : Nibble) (src : Byte),
    encode (.shr x y) = 0x8006 ||| (x.zeroExtend 16 <<< 8) ||| (y.zeroExtend 16 <<< 4) ∧
    encode (.shl x y) = 0x800E ||| (x.zeroExtend 16 <<< 8) ||| (y.zeroExtend 16 <<< 4) ∧
    ((ShiftsVy s.cfg → src = s.reg y) → (¬ ShiftsVy s.cfg → src = s.reg x) →
      (∃ t, exec (.shr x y) s = .next t ∧
        (t.reg x).toNat = src.toNat / 2 ∧ (x ≠ 0xF → (t.reg 0xF).toNat = src.toNat % 2) ∧
        Frame (fun p => p = .reg x ∨ p = .reg 0xF) s t) ∧
      (∃ t, exec (.shl x y) s = .next t ∧
        (t.reg x).toNat = src.toNat * 2 % 256 ∧ (x ≠ 0xF → (t.reg 0xF).toNat = src.toNat / 128) ∧
        Frame (fun p => p = .reg x ∨ p = .reg 0xF) s t))

/-- RND Vx, kk (R183): a free byte, drawn afresh, under the mask. That the byte is under no law is the spec's own decision
D18; the statement holds whatever `Config.drawByte` is. -/
def Obligations.RandomUnderMask : Prop :=
  ∀ (s : State) (x : Nibble) (kk : Byte),
    encode (.rnd x kk) = 0xC000 ||| (x.zeroExtend 16 <<< 8) ||| kk.zeroExtend 16 ∧
    ∃ t, exec (.rnd x kk) s = .next t ∧
      (∀ j, (t.reg x).getLsbD j = ((Config.drawByte s.draws).getLsbD j && kk.getLsbD j)) ∧
      t.draws = s.draws + 1 ∧ Frame (fun p => p = .reg x ∨ p = .draws) s t

/-! ### The index register and memory -/

/-- R210, R212: LD I and LD F. LD F uses all of Vx unless `FONT_INDEX_MASKED`: both values of that parameter are
stated, and every `FONT_BASE`. -/
def Obligations.IndexLoads : Prop :=
  ∀ (s : State) (x : Nibble) (nnn : Addr12),
    encode (.ldI nnn) = 0xA000 ||| nnn.zeroExtend 16 ∧ encode (.ldF x) = 0xF029 ||| (x.zeroExtend 16 <<< 8) ∧
    (∃ t, exec (.ldI nnn) s = .next t ∧ t.i.toNat = nnn.toNat ∧ Frame (fun p => p = .index) s t) ∧
    (∃ t, exec (.ldF x) s = .next t ∧
      t.i.toNat = (s.cfg.fontBase +
        (if s.cfg.fontIndexMasked = true then (s.reg x).toNat % 16 else (s.reg x).toNat) * 5) % 65536 ∧
      Frame (fun p => p = .index) s t)

/-- ADD I, Vx: the sum wraps at `MEM_SIZE`, and VF is not written: the spec's own decision D11 (R211). -/
def Obligations.AddToIndexWraps : Prop :=
  ∀ (s : State) (x : Nibble), s.cfg.wellFormed = true →
    encode (.addI x) = 0xF01E ||| (x.zeroExtend 16 <<< 8) ∧
    ∃ t, exec (.addI x) s = .next t ∧ t.i.toNat = (s.i.toNat + (s.reg x).toNat) % s.cfg.memSize ∧
      Frame (fun p => p = .index) s t

/-- R213: LD B: the decimal digits at I, I + 1 and I + 2; otherwise the fault of the first of them outside RAM. -/
def Obligations.StoreDecimalDigits : Prop :=
  ∀ (s : State) (x : Nibble),
    encode (.ldB x) = 0xF033 ||| (x.zeroExtend 16 <<< 8) ∧
    (s.i.toNat + 2 < s.cfg.memSize →
      ∃ t h d u, exec (.ldB x) s = .next t ∧
        memRead t s.i.toNat = .ok h ∧ memRead t (s.i.toNat + 1) = .ok d ∧ memRead t (s.i.toNat + 2) = .ok u ∧
        h.toNat = (s.reg x).toNat / 100 ∧ d.toNat = (s.reg x).toNat / 10 % 10 ∧ u.toNat = (s.reg x).toNat % 10 ∧
        Frame (fun p => ∃ k, k < 3 ∧ p = .byte (s.i.toNat + k)) s t) ∧
    (s.cfg.memSize ≤ s.i.toNat + 2 → exec (.ldB x) s = .fault (.memoryRange (max s.i.toNat s.cfg.memSize)))

/-- LD [I], Vx (R214), the wrap of I by the spec's own decision D12: V0 to Vx at I, ascending; I then moves by exactly x + 1 or not at all (R10); otherwise the fault
of the first address outside RAM. -/
def Obligations.StoreRegistersAtIndex : Prop :=
  ∀ (s : State) (x : Nibble), s.cfg.wellFormed = true →
    encode (.stRegs x) = 0xF055 ||| (x.zeroExtend 16 <<< 8) ∧
    (s.i.toNat + x.toNat < s.cfg.memSize →
      ∃ t, exec (.stRegs x) s = .next t ∧
        (∀ r : Nibble, r.toNat ≤ x.toNat → memRead t (s.i.toNat + r.toNat) = .ok (s.reg r)) ∧
        (IncrementsI s.cfg → t.i.toNat = (s.i.toNat + x.toNat + 1) % s.cfg.memSize) ∧
        (¬ IncrementsI s.cfg → t.i = s.i) ∧
        Frame (fun p => p = .index ∨ ∃ k, k ≤ x.toNat ∧ p = .byte (s.i.toNat + k)) s t) ∧
    (s.cfg.memSize ≤ s.i.toNat + x.toNat →
      exec (.stRegs x) s = .fault (.memoryRange (max s.i.toNat s.cfg.memSize)))

/-- LD Vx, [I] (R215), the wrap of I by the spec's own decision D12: V0 to Vx from I, ascending; I as after LD [I], Vx. -/
def Obligations.LoadRegistersFromIndex : Prop :=
  ∀ (s : State) (x : Nibble), s.cfg.wellFormed = true →
    encode (.ldRegs x) = 0xF065 ||| (x.zeroExtend 16 <<< 8) ∧
    (s.i.toNat + x.toNat < s.cfg.memSize →
      ∃ t, exec (.ldRegs x) s = .next t ∧
        (∀ r : Nibble, r.toNat ≤ x.toNat → memRead s (s.i.toNat + r.toNat) = .ok (t.reg r)) ∧
        (IncrementsI s.cfg → t.i.toNat = (s.i.toNat + x.toNat + 1) % s.cfg.memSize) ∧
        (¬ IncrementsI s.cfg → t.i = s.i) ∧
        Frame (fun p => p = .index ∨ ∃ r : Nibble, r.toNat ≤ x.toNat ∧ p = .reg r) s t) ∧
    (s.cfg.memSize ≤ s.i.toNat + x.toNat →
      exec (.ldRegs x) s = .fault (.memoryRange (max s.i.toNat s.cfg.memSize)))

/-- When I does not move, loading V0 to Vx right after storing them gives them back: nothing has changed but the bytes
stored (R214, R215). -/
def Obligations.StoreThenLoadRestores : Prop :=
  ∀ (s : State) (x : Nibble), ¬ IncrementsI s.cfg → s.i.toNat + x.toNat < s.cfg.memSize →
    ∃ t u, exec (.stRegs x) s = .next t ∧ exec (.ldRegs x) t = .next u ∧
      Frame (fun p => ∃ k, k ≤ x.toNat ∧ p = .byte (s.i.toNat + k)) s u

/-- Fetch is coherent with stores: a fetch at any address at which Fx55 stored two registers reads the two (R84). -/
def Obligations.StoredWordIsFetched : Prop :=
  ∀ (s t : State) (x p q : Nibble) (a : Word), exec (.stRegs x) s = .next t →
    q.toNat = p.toNat + 1 → q.toNat ≤ x.toNat → a.toNat = s.i.toNat + p.toNat →
    ∃ w u, fetch { t with pc := a } = .ok (w, u) ∧ w.toNat = (s.reg p).toNat * 256 + (s.reg q).toNat

/-! ### The display -/

/-- R246, R245: CLS. -/
def Obligations.ClearDisplayRows : Prop :=
  (∀ w, decode w = .ok .cls ↔ w = 0x00E0) ∧
  ∀ s : State, ∃ t, exec .cls s = .next t ∧ (∀ y, y < 32 → t.display[y]? = some 0) ∧
    Frame (fun p => ∃ y, y < 32 ∧ p = .row y) s t

/-- R241 to R243: what DisplaySet does to each pixel of the screen: the coordinates wrap, the byte clips at the right
edge, the drawn pixels are toggled, and the collision says whether one of them was on. -/
def Obligations.SpriteBytePixels : Prop :=
  ∀ (d : Vector Row 32) (x y : Nat) (b : Byte),
    displaySet d (x + 64) y b = displaySet d x y b ∧ displaySet d x (y + 32) b = displaySet d x y b ∧
    (∀ c r, c < 64 → r < 32 →
      displayGet (displaySet d x y b).1 c r = (displayGet d c r ^^ (decide (r = y % 32) && spritePixel x b c))) ∧
    ((displaySet d x y b).2 = true ↔
      ∃ c, c < 64 ∧ spritePixel x b c = true ∧ displayGet d c (y % 32) = true)

/-- R247: DRW: each sprite byte toggles its pixels of its row, VF says whether one that was on was toggled, and
nothing else changes; with n = 0 no memory is read and VF is 0. A byte outside RAM is a fault. -/
def Obligations.DrawSpriteRows : Prop :=
  ∀ (s : State) (x y n : Nibble),
    encode (.drw x y n) = 0xD000 ||| (x.zeroExtend 16 <<< 8) ||| (y.zeroExtend 16 <<< 4) ||| n.zeroExtend 16 ∧
    (n = 0 ∨ s.i.toNat + n.toNat ≤ s.cfg.memSize →
      ∃ t, exec (.drw x y n) s = .next t ∧
        (∀ k b c, k < n.toNat → memRead s (s.i.toNat + k) = .ok b → c < 64 →
          displayGet t.display c (((s.reg y).toNat + k) % 32) =
            (displayGet s.display c (((s.reg y).toNat + k) % 32) ^^ spritePixel (s.reg x).toNat b c)) ∧
        (t.reg 0xF = 0 ∨ t.reg 0xF = 1) ∧
        (t.reg 0xF = 1 ↔ ∃ k b c, k < n.toNat ∧ memRead s (s.i.toNat + k) = .ok b ∧ c < 64 ∧
          spritePixel (s.reg x).toNat b c = true ∧
          displayGet s.display c (((s.reg y).toNat + k) % 32) = true) ∧
        Frame (fun p => p = .reg 0xF ∨ ∃ k, k < n.toNat ∧ p = .row (((s.reg y).toNat + k) % 32)) s t) ∧
    (n ≠ 0 → s.cfg.memSize < s.i.toNat + n.toNat →
      exec (.drw x y n) s = .fault (.memoryRange (max s.i.toNat s.cfg.memSize)))

/-- R249: the XOR round trip. Drawing a sprite twice restores every row, and the second draw reports VF = 1 exactly when
some drawn pixel was clear before the first; on an empty display, when the sprite has a visible pixel. With no prior
overlap the first draw reports VF = 0. -/
def Obligations.DrawTwiceRestores : Prop :=
  ∀ (s t : State) (x y n : Nibble), x ≠ 0xF → y ≠ 0xF → exec (.drw x y n) s = .next t →
    ∃ u, exec (.drw x y n) t = .next u ∧
      (∀ r : Nat, u.display[r]? = s.display[r]?) ∧
      (u.reg 0xF = 1 ↔ ∃ k b c, k < n.toNat ∧ memRead s (s.i.toNat + k) = .ok b ∧ c < 64 ∧
        spritePixel (s.reg x).toNat b c = true ∧ displayGet s.display c (((s.reg y).toNat + k) % 32) = false) ∧
      ((∀ r, r < 32 → s.display[r]? = some 0) →
        (u.reg 0xF = 1 ↔ ∃ k b c, k < n.toNat ∧ memRead s (s.i.toNat + k) = .ok b ∧ c < 64 ∧
          spritePixel (s.reg x).toNat b c = true)) ∧
      ((∀ k b c, k < n.toNat → memRead s (s.i.toNat + k) = .ok b → c < 64 →
          spritePixel (s.reg x).toNat b c = true → displayGet s.display c (((s.reg y).toNat + k) % 32) = false) →
        t.reg 0xF = 0)

/-- The pixel read tests bit 63 - x of row y (R244); that it is refused outside the screen is the spec's own decision
D24. -/
def Obligations.PixelReadsOneBit : Prop :=
  ∀ (s : State) (x y : Nat),
    (∀ row : Row, x ≤ 63 → s.display[y]? = some row →
      pixel s x y = .next (decide (row.toNat / 2 ^ (63 - x) % 2 = 1))) ∧
    (63 < x ∨ 31 < y → pixel s x y = .refused (.noSuchPixel x y))

/-! ### Timers, sound and keys -/

/-- R277, R278: LD Vx, DT and LD DT, Vx. -/
def Obligations.DelayTimerTransfers : Prop :=
  ∀ (s : State) (x : Nibble),
    encode (.ldVxDt x) = 0xF007 ||| (x.zeroExtend 16 <<< 8) ∧ encode (.ldDtVx x) = 0xF015 ||| (x.zeroExtend 16 <<< 8) ∧
    (∃ t, exec (.ldVxDt x) s = .next t ∧ t.reg x = s.dt ∧ Frame (fun p => p = .reg x) s t) ∧
    (∃ t, exec (.ldDtVx x) s = .next t ∧ t.dt = s.reg x ∧ Frame (fun p => p = .delay) s t)

/-- R279, R272: LD ST, Vx goes through the sound timer's setter: start() whenever the value is positive, stop() only when
a positive ST becomes 0. -/
def Obligations.SoundTimerSet : Prop :=
  ∀ (s : State) (x : Nibble),
    encode (.ldStVx x) = 0xF018 ||| (x.zeroExtend 16 <<< 8) ∧
    ∃ t, exec (.ldStVx x) s = .next t ∧ t.st = s.reg x ∧
      (0 < (s.reg x).toNat → t.events = s.events ++ [.start] ∧ t.tone = .on) ∧
      ((s.reg x).toNat = 0 → 0 < s.st.toNat → t.events = s.events ++ [.stop] ∧ t.tone = .off) ∧
      ((s.reg x).toNat = 0 → s.st.toNat = 0 → t.events = s.events ∧ t.tone = s.tone) ∧
      Frame (fun p => p = .sound ∨ p = .events ∨ p = .tone) s t

/-- R270, R273, R322 (its delay and sound clauses): a timer tick counts both timers down to 0 and no further, RUNNING or
PAUSED; start() while ST stays positive, stop() when it becomes 0. -/
def Obligations.TimerTickCountsDown : Prop :=
  ∀ s : State, Ticks s →
    ∃ t, hostOp .timerTick s = .next t ∧ t.dt.toNat = s.dt.toNat - 1 ∧ t.st.toNat = s.st.toNat - 1 ∧
      (1 < s.st.toNat → t.events = s.events ++ [.start] ∧ t.tone = .on) ∧
      (s.st.toNat = 1 → t.events = s.events ++ [.stop] ∧ t.tone = .off) ∧
      (s.st.toNat = 0 → t.events = s.events ∧ t.tone = s.tone) ∧
      Frame (fun p => p = .delay ∨ p = .sound ∨ p = .events ∨ p = .tone) s t

/-- SKP and SKNP test the locked mask (R281, R282); a register above 15 names no key, and the test is a free draw by the
spec's own decision D15: the statement holds whatever `Config.drawBool` is. -/
def Obligations.SkipOnKey : Prop :=
  ∀ (s : State) (x : Nibble) (p : Bool),
    encode (.skp x) = 0xE09E ||| (x.zeroExtend 16 <<< 8) ∧ encode (.sknp x) = 0xE0A1 ||| (x.zeroExtend 16 <<< 8) ∧
    (((s.reg x).toNat ≤ 15 → p = decide (s.locked.toNat / 2 ^ (s.reg x).toNat % 2 = 1)) →
      (15 < (s.reg x).toNat → p = Config.drawBool s.draws) →
      (∃ t, exec (.skp x) s = .next t ∧ t.pc.toNat = (s.pc.toNat + if p then 2 else 0) % 65536 ∧
        t.draws = s.draws + (if (s.reg x).toNat ≤ 15 then 0 else 1) ∧
        Frame (fun q => q = .pc ∨ q = .draws) s t) ∧
      (∃ t, exec (.sknp x) s = .next t ∧ t.pc.toNat = (s.pc.toNat + if p then 0 else 2) % 65536 ∧
        t.draws = s.draws + (if (s.reg x).toNat ≤ 15 then 0 else 1) ∧
        Frame (fun q => q = .pc ∨ q = .draws) s t))

/-- LD Vx, K pauses the core; Vx is not written here: the spec's own decision D16 (R283). -/
def Obligations.KeyWaitPauses : Prop :=
  ∀ (s : State) (x : Nibble),
    encode (.ldVxK x) = 0xF00A ||| (x.zeroExtend 16 <<< 8) ∧
    ∃ t, exec (.ldVxK x) s = .next t ∧ t.cpu = .paused ∧ t.waitReg = x ∧ t.pendingKey = none ∧
      Frame (fun p => p = .run ∨ p = .waitReg ∨ p = .pendingKey) s t

/-- A key press sets its live bit; it latches its key when it is an edge, the core is PAUSED and no edge is latched
yet. The latch is the spec's own decision D16 (R323, R285). -/
def Obligations.KeyDownLatchesEdge : Prop :=
  ∀ (s : State) (k : Nat), k < 16 →
    ∃ t, hostOp (.keyDown k) s = .next t ∧
      (∀ j, j < 16 → t.live.getLsbD j = (decide (j = k) || s.live.getLsbD j)) ∧
      (s.live.getLsbD k = false → s.cpu = .paused → s.pendingKey = none →
        ∃ q, t.pendingKey = some q ∧ q.toNat = k) ∧
      (s.live.getLsbD k = true ∨ s.cpu = .running ∨ s.pendingKey ≠ none → t.pendingKey = s.pendingKey) ∧
      Frame (fun p => p = .live ∨ p = .pendingKey) s t

/-- R324: a key release clears its live bit and affects nothing else, `locked`, `pendingKey` and the run state among
them. -/
def Obligations.KeyUpClearsBit : Prop :=
  ∀ (s : State) (k : Nat), k < 16 →
    ∃ t, hostOp (.keyUp k) s = .next t ∧
      (∀ j, j < 16 → t.live.getLsbD j = (decide (j ≠ k) && s.live.getLsbD j)) ∧
      Frame (fun p => p = .live) s t

/-- The host cannot deliver a key above 15: both key operations refuse it (U21, the spec's own treatment of a point
its source leaves open). -/
def Obligations.KeysAboveFifteenRefused : Prop :=
  ∀ (s : State) (k : Nat), 16 ≤ k →
    hostOp (.keyDown k) s = .refused (.noSuchKey k) ∧ hostOp (.keyUp k) s = .refused (.noSuchKey k)

/-- One driving cycle (R327) of a core that waits for a key with no edge latched: N CPU ticks snapshot the keys and do
nothing else, and the one timer tick counts the delay timer down (R284, R317). -/
def Obligations.TimersRunDuringKeyWait : Prop :=
  ∀ s : State, Ticks s → s.cpu = .paused → s.pendingKey = none → 0 < s.cfg.cpuTicksPerTimerTick →
    ∃ t, runOps (cycleOps s.cfg) s = .next t ∧ t.locked = s.live ∧ t.dt.toNat = s.dt.toNat - 1 ∧
      t.st.toNat = s.st.toNat - 1 ∧
      Frame (fun p => p = .locked ∨ p = .delay ∨ p = .sound ∨ p = .events ∨ p = .tone) s t
end

