-- ==== Sys2Proof/Laws/Decode.lean ====
section
/-! SUPPORT. The fields of an opcode against the packings the encoder uses: each field of a packed word is the part it
was packed from, and a word is its fields. -/

namespace Sys2Proof

/-! ### Fields and words as numbers -/

@[simp] theorem fieldH_toNat (w : Word) : (fieldH w).toNat = w.toNat / 4096 := by
  have := w.isLt
  simp only [fieldH, BitVec.extractLsb'_toNat, Nat.shiftRight_eq_div_pow]
  omega

@[simp] theorem fieldX_toNat (w : Word) : (fieldX w).toNat = w.toNat / 256 % 16 := by
  simp [fieldX, Nat.shiftRight_eq_div_pow]

@[simp] theorem fieldY_toNat (w : Word) : (fieldY w).toNat = w.toNat / 16 % 16 := by
  simp [fieldY, Nat.shiftRight_eq_div_pow]

@[simp] theorem fieldN_toNat (w : Word) : (fieldN w).toNat = w.toNat % 16 := by simp [fieldN]

@[simp] theorem fieldKK_toNat (w : Word) : (fieldKK w).toNat = w.toNat % 256 := by simp [fieldKK]

@[simp] theorem fieldNNN_toNat (w : Word) : (fieldNNN w).toNat = w.toNat % 4096 := by simp [fieldNNN]

@[simp] theorem packNNN_toNat (h : Nibble) (nnn : Addr12) : (packNNN h nnn).toNat = h.toNat * 4096 + nnn.toNat := by
  have := nnn.isLt
  simp only [packNNN, BitVec.toNat_append]
  rw [← Nat.shiftLeft_add_eq_or_of_lt nnn.isLt, Nat.shiftLeft_eq]

@[simp] theorem packXKK_toNat (h x : Nibble) (kk : Byte) :
    (packXKK h x kk).toNat = h.toNat * 4096 + x.toNat * 256 + kk.toNat := by
  simp only [packXKK, BitVec.toNat_append]
  rw [← Nat.shiftLeft_add_eq_or_of_lt x.isLt, ← Nat.shiftLeft_add_eq_or_of_lt kk.isLt, Nat.shiftLeft_eq, Nat.shiftLeft_eq]
  omega

@[simp] theorem packXYN_toNat (h x y n : Nibble) :
    (packXYN h x y n).toNat = h.toNat * 4096 + x.toNat * 256 + y.toNat * 16 + n.toNat := by
  simp only [packXYN, BitVec.toNat_append]
  rw [← Nat.shiftLeft_add_eq_or_of_lt x.isLt, ← Nat.shiftLeft_add_eq_or_of_lt y.isLt,
    ← Nat.shiftLeft_add_eq_or_of_lt n.isLt, Nat.shiftLeft_eq, Nat.shiftLeft_eq, Nat.shiftLeft_eq]
  omega

@[simp] theorem joinBytes_toNat (hi lo : Byte) : (joinBytes hi lo).toNat = hi.toNat * 256 + lo.toNat := by
  simp only [joinBytes, BitVec.toNat_append]
  rw [← Nat.shiftLeft_add_eq_or_of_lt lo.isLt, Nat.shiftLeft_eq]

/-- The bytes of a word, joined, are the word (R73). -/
theorem joinBytes_splitWord (w : Word) : joinBytes (splitWord w).1 (splitWord w).2 = w := by
  have := w.isLt
  refine BitVec.eq_of_toNat_eq ?_
  simp only [joinBytes_toNat, splitWord, BitVec.extractLsb'_toNat, Nat.shiftRight_eq_div_pow]
  omega

/-! ### The fields of a packed word -/

theorem fieldH_packNNN (h : Nibble) (nnn : Addr12) : fieldH (packNNN h nnn) = h := by
  refine BitVec.eq_of_toNat_eq ?_
  have := nnn.isLt
  simp only [fieldH_toNat, packNNN_toNat]
  omega

theorem fieldNNN_packNNN (h : Nibble) (nnn : Addr12) : fieldNNN (packNNN h nnn) = nnn := by
  refine BitVec.eq_of_toNat_eq ?_
  have := nnn.isLt
  simp only [fieldNNN_toNat, packNNN_toNat]
  omega

theorem fieldH_packXKK (h x : Nibble) (kk : Byte) : fieldH (packXKK h x kk) = h := by
  refine BitVec.eq_of_toNat_eq ?_
  have := x.isLt
  have := kk.isLt
  simp only [fieldH_toNat, packXKK_toNat]
  omega

theorem fieldX_packXKK (h x : Nibble) (kk : Byte) : fieldX (packXKK h x kk) = x := by
  refine BitVec.eq_of_toNat_eq ?_
  have := x.isLt
  have := kk.isLt
  simp only [fieldX_toNat, packXKK_toNat]
  omega

theorem fieldKK_packXKK (h x : Nibble) (kk : Byte) : fieldKK (packXKK h x kk) = kk := by
  refine BitVec.eq_of_toNat_eq ?_
  have := kk.isLt
  simp only [fieldKK_toNat, packXKK_toNat]
  omega

theorem fieldH_packXYN (h x y n : Nibble) : fieldH (packXYN h x y n) = h := by
  refine BitVec.eq_of_toNat_eq ?_
  have := x.isLt
  have := y.isLt
  have := n.isLt
  simp only [fieldH_toNat, packXYN_toNat]
  omega

theorem fieldX_packXYN (h x y n : Nibble) : fieldX (packXYN h x y n) = x := by
  refine BitVec.eq_of_toNat_eq ?_
  have := x.isLt
  have := y.isLt
  have := n.isLt
  simp only [fieldX_toNat, packXYN_toNat]
  omega

theorem fieldY_packXYN (h x y n : Nibble) : fieldY (packXYN h x y n) = y := by
  refine BitVec.eq_of_toNat_eq ?_
  have := y.isLt
  have := n.isLt
  simp only [fieldY_toNat, packXYN_toNat]
  omega

theorem fieldN_packXYN (h x y n : Nibble) : fieldN (packXYN h x y n) = n := by
  refine BitVec.eq_of_toNat_eq ?_
  have := n.isLt
  simp only [fieldN_toNat, packXYN_toNat]
  omega

/-! ### The packings as the rules write them -/

/-- `h << 12 | nnn`, as the encodings of 1nnn, 2nnn, Annn and Bnnn are written. -/
theorem packNNN_eq_or (h : Nibble) (nnn : Addr12) :
    packNNN h nnn = (h.zeroExtend 16 <<< 12) ||| nnn.zeroExtend 16 := by
  refine BitVec.eq_of_getLsbD_eq fun j hj => ?_
  simp only [packNNN, BitVec.getLsbD_append, BitVec.getLsbD_or, BitVec.getLsbD_shiftLeft, BitVec.truncate_eq_setWidth,
    BitVec.getLsbD_setWidth]
  by_cases h12 : j < 12
  · simp [h12, hj]
  · have : nnn.getLsbD j = false := BitVec.getLsbD_of_ge _ _ (by omega)
    simp [h12, this, hj]
    omega

/-- `h << 12 | x << 8 | kk`. -/
theorem packXKK_eq_or (h x : Nibble) (kk : Byte) :
    packXKK h x kk = (h.zeroExtend 16 <<< 12) ||| (x.zeroExtend 16 <<< 8) ||| kk.zeroExtend 16 := by
  refine BitVec.eq_of_getLsbD_eq fun j hj => ?_
  simp only [packXKK, BitVec.getLsbD_append, BitVec.getLsbD_or, BitVec.getLsbD_shiftLeft, BitVec.truncate_eq_setWidth,
    BitVec.getLsbD_setWidth]
  rcases Nat.lt_or_ge j 8 with h8 | h8
  · simp [h8, hj, show j < 12 by omega]
  · have hk : kk.getLsbD j = false := BitVec.getLsbD_of_ge _ _ h8
    rcases Nat.lt_or_ge j 12 with h12 | h12
    · simp [hk, hj, h12, show ¬ j < 8 by omega, show j - 8 < 4 by omega, show j - 8 < 16 by omega]
    · have hx : x.getLsbD (j - 8) = false := BitVec.getLsbD_of_ge _ _ (by omega)
      simp [hk, hx, hj, show ¬ j < 8 by omega, show ¬ j < 12 by omega, show ¬ j - 8 < 4 by omega,
        show j - 8 - 4 = j - 12 by omega, show j - 12 < 16 by omega]

/-- `h << 12 | x << 8 | y << 4 | n`. -/
theorem packXYN_eq_or (h x y n : Nibble) :
    packXYN h x y n
      = (h.zeroExtend 16 <<< 12) ||| (x.zeroExtend 16 <<< 8) ||| (y.zeroExtend 16 <<< 4) ||| n.zeroExtend 16 := by
  refine BitVec.eq_of_getLsbD_eq fun j hj => ?_
  simp only [packXYN, BitVec.getLsbD_append, BitVec.getLsbD_or, BitVec.getLsbD_shiftLeft, BitVec.truncate_eq_setWidth,
    BitVec.getLsbD_setWidth]
  rcases Nat.lt_or_ge j 4 with h4 | h4
  · simp [h4, hj, show j < 8 by omega, show j < 12 by omega]
  · have hn : n.getLsbD j = false := BitVec.getLsbD_of_ge _ _ h4
    rcases Nat.lt_or_ge j 8 with h8 | h8
    · simp [hn, hj, h8, show j < 12 by omega, show ¬ j < 4 by omega, show j - 4 < 4 by omega, show j - 4 < 16 by omega]
    · have hy : y.getLsbD (j - 4) = false := BitVec.getLsbD_of_ge _ _ (by omega)
      rcases Nat.lt_or_ge j 12 with h12 | h12
      · simp [hn, hy, hj, h12, show ¬ j < 4 by omega, show ¬ j < 8 by omega, show ¬ j - 4 < 4 by omega,
          show j - 4 - 4 = j - 8 by omega, show j - 8 < 4 by omega, show j - 8 < 16 by omega]
      · have hx : x.getLsbD (j - 8) = false := BitVec.getLsbD_of_ge _ _ (by omega)
        simp [hn, hy, hx, hj, show ¬ j < 4 by omega, show ¬ j < 8 by omega, show ¬ j < 12 by omega,
          show ¬ j - 4 < 4 by omega, show ¬ j - 4 - 4 < 4 by omega, show j - 4 - 4 - 4 = j - 12 by omega,
          show j - 12 < 16 by omega]

/-- The `or` form the encodings of the register-register rules have: the fixed bits, then the two fields. -/
theorem packXYN_fields (h x y n : Nibble) :
    packXYN h x y n = packXYN h 0 0 n ||| (x.zeroExtend 16 <<< 8) ||| (y.zeroExtend 16 <<< 4) := by
  rw [packXYN_eq_or, packXYN_eq_or h 0 0 n, show (0 : Nibble).zeroExtend 16 <<< 8 = 0#16 from rfl,
    show (0 : Nibble).zeroExtend 16 <<< 4 = 0#16 from rfl, BitVec.or_zero, BitVec.or_zero]
  ac_rfl

/-- The same for a register and an immediate. -/
theorem packXKK_fields (h x : Nibble) (kk : Byte) :
    packXKK h x kk = packXKK h 0 0 ||| (x.zeroExtend 16 <<< 8) ||| kk.zeroExtend 16 := by
  rw [packXKK_eq_or, packXKK_eq_or h 0 0, show (0 : Nibble).zeroExtend 16 <<< 8 = 0#16 from rfl,
    show (0 : Byte).zeroExtend 16 = 0#16 from rfl, BitVec.or_zero, BitVec.or_zero]

/-- The same for a register and a fixed low byte. -/
theorem packXKK_field (h x : Nibble) (kk : Byte) : packXKK h x kk = packXKK h 0 kk ||| (x.zeroExtend 16 <<< 8) := by
  rw [packXKK_eq_or, packXKK_eq_or h 0 kk, show (0 : Nibble).zeroExtend 16 <<< 8 = 0#16 from rfl, BitVec.or_zero]
  ac_rfl

/-- The same for a 12-bit immediate. -/
theorem packNNN_field (h : Nibble) (nnn : Addr12) : packNNN h nnn = packNNN h 0 ||| nnn.zeroExtend 16 := by
  rw [packNNN_eq_or, packNNN_eq_or h 0, show (0 : Addr12).zeroExtend 16 = 0#16 from rfl, BitVec.or_zero]

/-! ### The verdict -/

theorem decode_ok {w : Word} {i : Instr} : decode w = .ok i ↔ decodeWord w = some i := by
  unfold decode
  split <;> simp_all

/-- The decoder's only failure carries the raw opcode (R109). -/
theorem decode_error {w : Word} {r : Rejection} :
    decode w = .error r ↔ decodeWord w = none ∧ r = .unrecognizedOpcode w := by
  cases h : decodeWord w <;> simp [decode, h, eq_comm]

end Sys2Proof
end

