-- ==== Sys2Proof/Laws/Memory.lean ====
section
/-! SUPPORT. RAM: a read after a write gives the byte written, a write leaves every other address alone, and every
memory operation keeps the canonical form; then the same once for the block accesses of Machine/Ops.lean. -/

namespace Sys2Proof.Machine

/-! ### One cell -/

theorem find_insert_same (m : Memory) (a : Nat) (b : Byte) : Memory.find (Memory.insert m a b) a = some b := by
  induction m with
  | nil => simp [Memory.insert, Memory.find]
  | cons p m ih =>
    obtain ⟨k, d⟩ := p
    unfold Memory.insert
    split
    · simp [Memory.find]
    · split
      · simp [Memory.find]
      · rename_i h
        simpa [Memory.find, h] using ih

theorem find_insert_other (m : Memory) {a e : Nat} (b : Byte) (h : e ≠ a) :
    Memory.find (Memory.insert m a b) e = Memory.find m e := by
  induction m with
  | nil => simp [Memory.insert, Memory.find, Ne.symm h]
  | cons p m ih =>
    obtain ⟨k, d⟩ := p
    unfold Memory.insert
    split
    · simp [Memory.find, Ne.symm h]
    · split
      · rename_i hk
        subst hk
        simp [Memory.find, Ne.symm h]
      · simp [Memory.find, ih]

theorem find_erase_same (m : Memory) (a : Nat) : Memory.find (Memory.erase m a) a = none := by
  induction m with
  | nil => rfl
  | cons p m ih =>
    obtain ⟨k, d⟩ := p
    unfold Memory.erase at ih ⊢
    by_cases h : k = a
    · simpa [List.filter_cons, h] using ih
    · simpa [List.filter_cons, h, Memory.find] using ih

theorem find_erase_other (m : Memory) {a e : Nat} (h : e ≠ a) :
    Memory.find (Memory.erase m a) e = Memory.find m e := by
  induction m with
  | nil => rfl
  | cons p m ih =>
    obtain ⟨k, d⟩ := p
    unfold Memory.erase at ih ⊢
    by_cases hk : k = a
    · subst hk
      simpa [List.filter_cons, Memory.find, Ne.symm h] using ih
    · simpa [List.filter_cons, hk, Memory.find] using by rw [← ih]; simp

/-- A byte reads back as it was written. -/
theorem read_write_same (c : Config) (m : Memory) (a : Nat) (b : Byte) :
    Memory.read c (Memory.write c m a b) a = b := by
  unfold Memory.read Memory.write
  split
  · rename_i h
    simp [find_erase_same, h]
  · simp [find_insert_same]

/-- A write leaves every other address as it was. -/
theorem read_write_other (c : Config) (m : Memory) {a e : Nat} (b : Byte) (h : e ≠ a) :
    Memory.read c (Memory.write c m a b) e = Memory.read c m e := by
  unfold Memory.read Memory.write
  split
  · rw [find_erase_other m h]
  · rw [find_insert_other m b h]

/-! ### The canonical form -/

theorem mem_insert {m : Memory} {a : Nat} {b : Byte} {p : Host.Cell} (h : p ∈ Memory.insert m a b) :
    p = (a, b) ∨ p ∈ m := by
  induction m with
  | nil => simpa [Memory.insert] using h
  | cons q m ih =>
    obtain ⟨k, d⟩ := q
    unfold Memory.insert at h
    split at h
    · simpa using h
    · split at h
      · rcases List.mem_cons.mp h with h | h
        · exact .inl h
        · exact .inr (List.mem_cons_of_mem _ h)
      · rcases List.mem_cons.mp h with h | h
        · exact .inr (h ▸ List.mem_cons_self)
        · exact (ih h).imp id (List.mem_cons_of_mem _)

theorem pairwise_insert {m : Memory} (a : Nat) (b : Byte) (h : m.Pairwise (fun p q => p.1 < q.1)) :
    (Memory.insert m a b).Pairwise (fun p q => p.1 < q.1) := by
  induction m with
  | nil => simp [Memory.insert]
  | cons q m ih =>
    obtain ⟨k, d⟩ := q
    have hm := List.pairwise_cons.mp h
    unfold Memory.insert
    split
    · rename_i hak
      refine List.pairwise_cons.mpr ⟨fun p hp => ?_, h⟩
      rcases List.mem_cons.mp hp with hp | hp
      · simpa [hp] using hak
      · exact lt_trans hak (hm.1 p hp)
    · split
      · rename_i hk
        subst hk
        exact List.pairwise_cons.mpr ⟨hm.1, hm.2⟩
      · refine List.pairwise_cons.mpr ⟨fun p hp => ?_, ih hm.2⟩
        rcases mem_insert hp with hp | hp
        · subst hp
          change k < a
          omega
        · exact hm.1 p hp

/-- A write of a byte inside RAM keeps the canonical form. -/
theorem write_wf {c : Config} {m : Memory} {a : Nat} (b : Byte) (ha : a < c.memSize) (h : Memory.wf c m) :
    Memory.wf c (Memory.write c m a b) := by
  unfold Memory.write
  split
  · exact ⟨h.1.filter _, fun p hp => h.2 p (List.mem_filter.mp hp).1⟩
  · rename_i hb
    refine ⟨pairwise_insert a b h.1, fun p hp => ?_⟩
    rcases mem_insert hp with hp | hp
    · subst hp
      exact ⟨ha, hb⟩
    · exact h.2 p hp

/-- RAM after a reset is in canonical form: nothing is listed. -/
theorem reset_ram_wf : Memory.wf State.reset.cfg State.reset.ram := ⟨List.Pairwise.nil, by simp [State.reset]⟩

/-! ### `MemRead` and `MemWrite` -/

theorem memRead_ok {s : State} {a : Nat} (h : a < s.cfg.memSize) : memRead s a = .ok (Memory.read s.cfg s.ram a) :=
  if_pos h

theorem memRead_error {s : State} {a : Nat} (h : s.cfg.memSize ≤ a) : memRead s a = .error (.memoryRange a) :=
  if_neg (Nat.not_lt.mpr h)

theorem memWrite_ok {s : State} {a : Nat} (b : Byte) (h : a < s.cfg.memSize) :
    memWrite s a b = .ok { s with ram := Memory.write s.cfg s.ram a b } :=
  if_pos h

theorem memWrite_error {s : State} {a : Nat} (b : Byte) (h : s.cfg.memSize ≤ a) :
    memWrite s a b = .error (.memoryRange a) :=
  if_neg (Nat.not_lt.mpr h)

/-- Two states with the same configuration whose RAM reads alike at an address. -/
theorem memRead_congr {s t : State} {a : Nat} (hc : t.cfg = s.cfg)
    (hr : Memory.read s.cfg t.ram a = Memory.read s.cfg s.ram a) : memRead t a = memRead s a := by
  simp [memRead, hc, hr]

/-! ### Block accesses -/

/-- A block read inside RAM gives its bytes. -/
theorem readBytes_ok {n : Nat} {s : State} {a : Nat} (h : n = 0 ∨ a + n ≤ s.cfg.memSize) :
    readBytes n s a = .ok ((List.range n).map (fun k => Memory.read s.cfg s.ram (a + k))) := by
  induction n generalizing a with
  | zero => rfl
  | succ n ih =>
    have hb : a + (n + 1) ≤ s.cfg.memSize := by omega
    have hr := ih (a := a + 1) (by omega)
    simp only [readBytes, memRead_ok (show a < s.cfg.memSize by omega), hr, List.range_succ_eq_map, List.map_cons,
      List.map_map, Nat.add_zero]
    congr 2
    refine List.map_congr_left fun k _ => ?_
    simp [Nat.add_assoc, Nat.add_comm 1 k]

/-- A block read that leaves RAM faults at its first address outside (R307). -/
theorem readBytes_error {n : Nat} {s : State} {a : Nat} (hn : 0 < n) (h : s.cfg.memSize < a + n) :
    readBytes n s a = .error (.memoryRange (max a s.cfg.memSize)) := by
  induction n generalizing a with
  | zero => omega
  | succ n ih =>
    by_cases ha : a < s.cfg.memSize
    · have hr := ih (a := a + 1) (by omega) (by omega)
      simp only [readBytes, memRead_ok ha, hr]
      congr 2
      omega
    · simp only [readBytes, memRead_error (Nat.not_lt.mp ha)]
      congr 2
      omega

/-- A block write inside RAM: what every address reads as afterwards, and that nothing else changes. -/
theorem writeBytes_ok {bs : List Byte} {s : State} {a : Nat} (h : bs = [] ∨ a + bs.length ≤ s.cfg.memSize) :
    ∃ m : Memory, writeBytes bs s a = .ok { s with ram := m } ∧
      (Memory.wf s.cfg s.ram → Memory.wf s.cfg m) ∧
      ∀ e, Memory.read s.cfg m e = if a ≤ e then (bs[e - a]?).getD (Memory.read s.cfg s.ram e)
        else Memory.read s.cfg s.ram e := by
  induction bs generalizing s a with
  | nil => exact ⟨s.ram, rfl, id, fun e => by simp⟩
  | cons b bs ih =>
    have hb : a + (bs.length + 1) ≤ s.cfg.memSize := by simpa using h
    have ha : a < s.cfg.memSize := by omega
    obtain ⟨m, hw, hwf, hr⟩ :=
      ih (s := { s with ram := Memory.write s.cfg s.ram a b }) (a := a + 1)
        (.inr (by change a + 1 + bs.length ≤ s.cfg.memSize; omega))
    refine ⟨m, ?_, fun hs => hwf (write_wf b ha hs), fun e => ?_⟩
    · simp only [writeBytes, memWrite_ok b ha, hw]
    · rw [show Memory.read s.cfg m e = _ from hr e]
      rcases Nat.lt_trichotomy e a with he | he | he
      · rw [if_neg (by omega), if_neg (by omega), read_write_other _ _ _ (by omega)]
      · subst he
        rw [if_neg (by omega), if_pos (by omega), read_write_same]
        simp
      · rw [if_pos (by omega), if_pos (by omega), read_write_other _ _ _ (by omega)]
        obtain ⟨k, rfl⟩ : ∃ k, e = a + 1 + k := ⟨e - (a + 1), by omega⟩
        simp [show a + 1 + k - a = k + 1 by omega]

/-- A block write that leaves RAM faults at its first address outside (R307). -/
theorem writeBytes_error {bs : List Byte} {s : State} {a : Nat} (hn : bs ≠ [])
    (h : s.cfg.memSize < a + bs.length) :
    writeBytes bs s a = .error (.memoryRange (max a s.cfg.memSize)) := by
  induction bs generalizing s a with
  | nil => exact absurd rfl hn
  | cons b bs ih =>
    simp only [List.length_cons] at h
    by_cases ha : a < s.cfg.memSize
    · have hne : bs ≠ [] := by
        rintro rfl
        simp at h
        omega
      have hr := ih (s := { s with ram := Memory.write s.cfg s.ram a b }) (a := a + 1) hne
        (by change s.cfg.memSize < a + 1 + bs.length; omega)
      simp only [writeBytes, memWrite_ok b ha, hr]
      congr 2
      omega
    · simp only [writeBytes, memWrite_error b (Nat.not_lt.mp ha)]
      congr 2
      omega

end Sys2Proof.Machine
end

