-- ==== Sys2Proof/Laws/State.lean ====
section
/-! SUPPORT. What each named update of the state does to each field, to the registers and to the bytes of RAM: one
lemma per field per update, so that no proof unfolds a record update. -/

namespace Sys2Proof.Machine

/-! ### setReg -/

@[simp] theorem setReg_cfg (s : State) (r : Nibble) (b : Byte) : (s.setReg r b).cfg = s.cfg := rfl
@[simp] theorem setReg_i (s : State) (r : Nibble) (b : Byte) : (s.setReg r b).i = s.i := rfl
@[simp] theorem setReg_pc (s : State) (r : Nibble) (b : Byte) : (s.setReg r b).pc = s.pc := rfl
@[simp] theorem setReg_stack (s : State) (r : Nibble) (b : Byte) : (s.setReg r b).stack = s.stack := rfl
@[simp] theorem setReg_sp (s : State) (r : Nibble) (b : Byte) : (s.setReg r b).sp = s.sp := rfl
@[simp] theorem setReg_dt (s : State) (r : Nibble) (b : Byte) : (s.setReg r b).dt = s.dt := rfl
@[simp] theorem setReg_st (s : State) (r : Nibble) (b : Byte) : (s.setReg r b).st = s.st := rfl
@[simp] theorem setReg_ram (s : State) (r : Nibble) (b : Byte) : (s.setReg r b).ram = s.ram := rfl
@[simp] theorem setReg_display (s : State) (r : Nibble) (b : Byte) : (s.setReg r b).display = s.display := rfl
@[simp] theorem setReg_live (s : State) (r : Nibble) (b : Byte) : (s.setReg r b).live = s.live := rfl
@[simp] theorem setReg_locked (s : State) (r : Nibble) (b : Byte) : (s.setReg r b).locked = s.locked := rfl
@[simp] theorem setReg_cpu (s : State) (r : Nibble) (b : Byte) : (s.setReg r b).cpu = s.cpu := rfl
@[simp] theorem setReg_waitReg (s : State) (r : Nibble) (b : Byte) : (s.setReg r b).waitReg = s.waitReg := rfl
@[simp] theorem setReg_pendingKey (s : State) (r : Nibble) (b : Byte) : (s.setReg r b).pendingKey = s.pendingKey := rfl
@[simp] theorem setReg_tone (s : State) (r : Nibble) (b : Byte) : (s.setReg r b).tone = s.tone := rfl
@[simp] theorem setReg_fault (s : State) (r : Nibble) (b : Byte) : (s.setReg r b).fault = s.fault := rfl
@[simp] theorem setReg_loaded (s : State) (r : Nibble) (b : Byte) : (s.setReg r b).loaded = s.loaded := rfl
@[simp] theorem setReg_events (s : State) (r : Nibble) (b : Byte) : (s.setReg r b).events = s.events := rfl
@[simp] theorem setReg_draws (s : State) (r : Nibble) (b : Byte) : (s.setReg r b).draws = s.draws := rfl
@[simp] theorem setReg_schedule (s : State) (r : Nibble) (b : Byte) : (s.setReg r b).schedule = s.schedule := rfl
@[simp] theorem setReg_memRead (s : State) (r : Nibble) (b : Byte) (a : Nat) : memRead (s.setReg r b) a = memRead s a := rfl

/-! ### setPc -/

@[simp] theorem setPc_cfg (s : State) (n : Nat) : (s.setPc n).cfg = s.cfg := rfl
@[simp] theorem setPc_v (s : State) (n : Nat) : (s.setPc n).v = s.v := rfl
@[simp] theorem setPc_i (s : State) (n : Nat) : (s.setPc n).i = s.i := rfl
@[simp] theorem setPc_pc (s : State) (n : Nat) : (s.setPc n).pc = BitVec.ofNat 16 n := rfl
@[simp] theorem setPc_stack (s : State) (n : Nat) : (s.setPc n).stack = s.stack := rfl
@[simp] theorem setPc_sp (s : State) (n : Nat) : (s.setPc n).sp = s.sp := rfl
@[simp] theorem setPc_dt (s : State) (n : Nat) : (s.setPc n).dt = s.dt := rfl
@[simp] theorem setPc_st (s : State) (n : Nat) : (s.setPc n).st = s.st := rfl
@[simp] theorem setPc_ram (s : State) (n : Nat) : (s.setPc n).ram = s.ram := rfl
@[simp] theorem setPc_display (s : State) (n : Nat) : (s.setPc n).display = s.display := rfl
@[simp] theorem setPc_live (s : State) (n : Nat) : (s.setPc n).live = s.live := rfl
@[simp] theorem setPc_locked (s : State) (n : Nat) : (s.setPc n).locked = s.locked := rfl
@[simp] theorem setPc_cpu (s : State) (n : Nat) : (s.setPc n).cpu = s.cpu := rfl
@[simp] theorem setPc_waitReg (s : State) (n : Nat) : (s.setPc n).waitReg = s.waitReg := rfl
@[simp] theorem setPc_pendingKey (s : State) (n : Nat) : (s.setPc n).pendingKey = s.pendingKey := rfl
@[simp] theorem setPc_tone (s : State) (n : Nat) : (s.setPc n).tone = s.tone := rfl
@[simp] theorem setPc_fault (s : State) (n : Nat) : (s.setPc n).fault = s.fault := rfl
@[simp] theorem setPc_loaded (s : State) (n : Nat) : (s.setPc n).loaded = s.loaded := rfl
@[simp] theorem setPc_events (s : State) (n : Nat) : (s.setPc n).events = s.events := rfl
@[simp] theorem setPc_draws (s : State) (n : Nat) : (s.setPc n).draws = s.draws := rfl
@[simp] theorem setPc_schedule (s : State) (n : Nat) : (s.setPc n).schedule = s.schedule := rfl
@[simp] theorem setPc_reg (s : State) (n : Nat) (q : Nibble) : (s.setPc n).reg q = s.reg q := rfl
@[simp] theorem setPc_memRead (s : State) (n : Nat) (a : Nat) : memRead (s.setPc n) a = memRead s a := rfl

/-! ### setI -/

@[simp] theorem setI_cfg (s : State) (n : Nat) : (s.setI n).cfg = s.cfg := rfl
@[simp] theorem setI_v (s : State) (n : Nat) : (s.setI n).v = s.v := rfl
@[simp] theorem setI_i (s : State) (n : Nat) : (s.setI n).i = BitVec.ofNat 16 n := rfl
@[simp] theorem setI_pc (s : State) (n : Nat) : (s.setI n).pc = s.pc := rfl
@[simp] theorem setI_stack (s : State) (n : Nat) : (s.setI n).stack = s.stack := rfl
@[simp] theorem setI_sp (s : State) (n : Nat) : (s.setI n).sp = s.sp := rfl
@[simp] theorem setI_dt (s : State) (n : Nat) : (s.setI n).dt = s.dt := rfl
@[simp] theorem setI_st (s : State) (n : Nat) : (s.setI n).st = s.st := rfl
@[simp] theorem setI_ram (s : State) (n : Nat) : (s.setI n).ram = s.ram := rfl
@[simp] theorem setI_display (s : State) (n : Nat) : (s.setI n).display = s.display := rfl
@[simp] theorem setI_live (s : State) (n : Nat) : (s.setI n).live = s.live := rfl
@[simp] theorem setI_locked (s : State) (n : Nat) : (s.setI n).locked = s.locked := rfl
@[simp] theorem setI_cpu (s : State) (n : Nat) : (s.setI n).cpu = s.cpu := rfl
@[simp] theorem setI_waitReg (s : State) (n : Nat) : (s.setI n).waitReg = s.waitReg := rfl
@[simp] theorem setI_pendingKey (s : State) (n : Nat) : (s.setI n).pendingKey = s.pendingKey := rfl
@[simp] theorem setI_tone (s : State) (n : Nat) : (s.setI n).tone = s.tone := rfl
@[simp] theorem setI_fault (s : State) (n : Nat) : (s.setI n).fault = s.fault := rfl
@[simp] theorem setI_loaded (s : State) (n : Nat) : (s.setI n).loaded = s.loaded := rfl
@[simp] theorem setI_events (s : State) (n : Nat) : (s.setI n).events = s.events := rfl
@[simp] theorem setI_draws (s : State) (n : Nat) : (s.setI n).draws = s.draws := rfl
@[simp] theorem setI_schedule (s : State) (n : Nat) : (s.setI n).schedule = s.schedule := rfl
@[simp] theorem setI_reg (s : State) (n : Nat) (q : Nibble) : (s.setI n).reg q = s.reg q := rfl
@[simp] theorem setI_memRead (s : State) (n : Nat) (a : Nat) : memRead (s.setI n) a = memRead s a := rfl

/-! ### delaySet -/

@[simp] theorem delaySet_cfg (s : State) (b : Byte) : (delaySet s b).cfg = s.cfg := rfl
@[simp] theorem delaySet_v (s : State) (b : Byte) : (delaySet s b).v = s.v := rfl
@[simp] theorem delaySet_i (s : State) (b : Byte) : (delaySet s b).i = s.i := rfl
@[simp] theorem delaySet_pc (s : State) (b : Byte) : (delaySet s b).pc = s.pc := rfl
@[simp] theorem delaySet_stack (s : State) (b : Byte) : (delaySet s b).stack = s.stack := rfl
@[simp] theorem delaySet_sp (s : State) (b : Byte) : (delaySet s b).sp = s.sp := rfl
@[simp] theorem delaySet_dt (s : State) (b : Byte) : (delaySet s b).dt = b := rfl
@[simp] theorem delaySet_st (s : State) (b : Byte) : (delaySet s b).st = s.st := rfl
@[simp] theorem delaySet_ram (s : State) (b : Byte) : (delaySet s b).ram = s.ram := rfl
@[simp] theorem delaySet_display (s : State) (b : Byte) : (delaySet s b).display = s.display := rfl
@[simp] theorem delaySet_live (s : State) (b : Byte) : (delaySet s b).live = s.live := rfl
@[simp] theorem delaySet_locked (s : State) (b : Byte) : (delaySet s b).locked = s.locked := rfl
@[simp] theorem delaySet_cpu (s : State) (b : Byte) : (delaySet s b).cpu = s.cpu := rfl
@[simp] theorem delaySet_waitReg (s : State) (b : Byte) : (delaySet s b).waitReg = s.waitReg := rfl
@[simp] theorem delaySet_pendingKey (s : State) (b : Byte) : (delaySet s b).pendingKey = s.pendingKey := rfl
@[simp] theorem delaySet_tone (s : State) (b : Byte) : (delaySet s b).tone = s.tone := rfl
@[simp] theorem delaySet_fault (s : State) (b : Byte) : (delaySet s b).fault = s.fault := rfl
@[simp] theorem delaySet_loaded (s : State) (b : Byte) : (delaySet s b).loaded = s.loaded := rfl
@[simp] theorem delaySet_events (s : State) (b : Byte) : (delaySet s b).events = s.events := rfl
@[simp] theorem delaySet_draws (s : State) (b : Byte) : (delaySet s b).draws = s.draws := rfl
@[simp] theorem delaySet_schedule (s : State) (b : Byte) : (delaySet s b).schedule = s.schedule := rfl
@[simp] theorem delaySet_reg (s : State) (b : Byte) (q : Nibble) : (delaySet s b).reg q = s.reg q := rfl
@[simp] theorem delaySet_memRead (s : State) (b : Byte) (a : Nat) : memRead (delaySet s b) a = memRead s a := rfl

/-! ### emitTone -/

@[simp] theorem emitTone_cfg (e : ToneEvent) (s : State) : (emitTone e s).cfg = s.cfg := rfl
@[simp] theorem emitTone_v (e : ToneEvent) (s : State) : (emitTone e s).v = s.v := rfl
@[simp] theorem emitTone_i (e : ToneEvent) (s : State) : (emitTone e s).i = s.i := rfl
@[simp] theorem emitTone_pc (e : ToneEvent) (s : State) : (emitTone e s).pc = s.pc := rfl
@[simp] theorem emitTone_stack (e : ToneEvent) (s : State) : (emitTone e s).stack = s.stack := rfl
@[simp] theorem emitTone_sp (e : ToneEvent) (s : State) : (emitTone e s).sp = s.sp := rfl
@[simp] theorem emitTone_dt (e : ToneEvent) (s : State) : (emitTone e s).dt = s.dt := rfl
@[simp] theorem emitTone_st (e : ToneEvent) (s : State) : (emitTone e s).st = s.st := rfl
@[simp] theorem emitTone_ram (e : ToneEvent) (s : State) : (emitTone e s).ram = s.ram := rfl
@[simp] theorem emitTone_display (e : ToneEvent) (s : State) : (emitTone e s).display = s.display := rfl
@[simp] theorem emitTone_live (e : ToneEvent) (s : State) : (emitTone e s).live = s.live := rfl
@[simp] theorem emitTone_locked (e : ToneEvent) (s : State) : (emitTone e s).locked = s.locked := rfl
@[simp] theorem emitTone_cpu (e : ToneEvent) (s : State) : (emitTone e s).cpu = s.cpu := rfl
@[simp] theorem emitTone_waitReg (e : ToneEvent) (s : State) : (emitTone e s).waitReg = s.waitReg := rfl
@[simp] theorem emitTone_pendingKey (e : ToneEvent) (s : State) : (emitTone e s).pendingKey = s.pendingKey := rfl
@[simp] theorem emitTone_fault (e : ToneEvent) (s : State) : (emitTone e s).fault = s.fault := rfl
@[simp] theorem emitTone_loaded (e : ToneEvent) (s : State) : (emitTone e s).loaded = s.loaded := rfl
@[simp] theorem emitTone_events (e : ToneEvent) (s : State) : (emitTone e s).events = s.events ++ [e] := rfl
@[simp] theorem emitTone_draws (e : ToneEvent) (s : State) : (emitTone e s).draws = s.draws := rfl
@[simp] theorem emitTone_schedule (e : ToneEvent) (s : State) : (emitTone e s).schedule = s.schedule := rfl
@[simp] theorem emitTone_reg (e : ToneEvent) (s : State) (q : Nibble) : (emitTone e s).reg q = s.reg q := rfl
@[simp] theorem emitTone_memRead (e : ToneEvent) (s : State) (a : Nat) : memRead (emitTone e s) a = memRead s a := rfl

/-! ### inputLock -/

@[simp] theorem inputLock_cfg (s : State) : (inputLock s).cfg = s.cfg := rfl
@[simp] theorem inputLock_v (s : State) : (inputLock s).v = s.v := rfl
@[simp] theorem inputLock_i (s : State) : (inputLock s).i = s.i := rfl
@[simp] theorem inputLock_pc (s : State) : (inputLock s).pc = s.pc := rfl
@[simp] theorem inputLock_stack (s : State) : (inputLock s).stack = s.stack := rfl
@[simp] theorem inputLock_sp (s : State) : (inputLock s).sp = s.sp := rfl
@[simp] theorem inputLock_dt (s : State) : (inputLock s).dt = s.dt := rfl
@[simp] theorem inputLock_st (s : State) : (inputLock s).st = s.st := rfl
@[simp] theorem inputLock_ram (s : State) : (inputLock s).ram = s.ram := rfl
@[simp] theorem inputLock_display (s : State) : (inputLock s).display = s.display := rfl
@[simp] theorem inputLock_live (s : State) : (inputLock s).live = s.live := rfl
@[simp] theorem inputLock_locked (s : State) : (inputLock s).locked = s.live := rfl
@[simp] theorem inputLock_cpu (s : State) : (inputLock s).cpu = s.cpu := rfl
@[simp] theorem inputLock_waitReg (s : State) : (inputLock s).waitReg = s.waitReg := rfl
@[simp] theorem inputLock_pendingKey (s : State) : (inputLock s).pendingKey = s.pendingKey := rfl
@[simp] theorem inputLock_tone (s : State) : (inputLock s).tone = s.tone := rfl
@[simp] theorem inputLock_fault (s : State) : (inputLock s).fault = s.fault := rfl
@[simp] theorem inputLock_loaded (s : State) : (inputLock s).loaded = s.loaded := rfl
@[simp] theorem inputLock_events (s : State) : (inputLock s).events = s.events := rfl
@[simp] theorem inputLock_draws (s : State) : (inputLock s).draws = s.draws := rfl
@[simp] theorem inputLock_schedule (s : State) : (inputLock s).schedule = s.schedule := rfl
@[simp] theorem inputLock_reg (s : State) (q : Nibble) : (inputLock s).reg q = s.reg q := rfl
@[simp] theorem inputLock_memRead (s : State) (a : Nat) : memRead (inputLock s) a = memRead s a := rfl

/-! ### pauseForKey -/

@[simp] theorem pauseForKey_cfg (s : State) (x : Nibble) : (pauseForKey s x).cfg = s.cfg := rfl
@[simp] theorem pauseForKey_v (s : State) (x : Nibble) : (pauseForKey s x).v = s.v := rfl
@[simp] theorem pauseForKey_i (s : State) (x : Nibble) : (pauseForKey s x).i = s.i := rfl
@[simp] theorem pauseForKey_pc (s : State) (x : Nibble) : (pauseForKey s x).pc = s.pc := rfl
@[simp] theorem pauseForKey_stack (s : State) (x : Nibble) : (pauseForKey s x).stack = s.stack := rfl
@[simp] theorem pauseForKey_sp (s : State) (x : Nibble) : (pauseForKey s x).sp = s.sp := rfl
@[simp] theorem pauseForKey_dt (s : State) (x : Nibble) : (pauseForKey s x).dt = s.dt := rfl
@[simp] theorem pauseForKey_st (s : State) (x : Nibble) : (pauseForKey s x).st = s.st := rfl
@[simp] theorem pauseForKey_ram (s : State) (x : Nibble) : (pauseForKey s x).ram = s.ram := rfl
@[simp] theorem pauseForKey_display (s : State) (x : Nibble) : (pauseForKey s x).display = s.display := rfl
@[simp] theorem pauseForKey_live (s : State) (x : Nibble) : (pauseForKey s x).live = s.live := rfl
@[simp] theorem pauseForKey_locked (s : State) (x : Nibble) : (pauseForKey s x).locked = s.locked := rfl
@[simp] theorem pauseForKey_cpu (s : State) (x : Nibble) : (pauseForKey s x).cpu = .paused := rfl
@[simp] theorem pauseForKey_waitReg (s : State) (x : Nibble) : (pauseForKey s x).waitReg = x := rfl
@[simp] theorem pauseForKey_pendingKey (s : State) (x : Nibble) : (pauseForKey s x).pendingKey = none := rfl
@[simp] theorem pauseForKey_tone (s : State) (x : Nibble) : (pauseForKey s x).tone = s.tone := rfl
@[simp] theorem pauseForKey_fault (s : State) (x : Nibble) : (pauseForKey s x).fault = s.fault := rfl
@[simp] theorem pauseForKey_loaded (s : State) (x : Nibble) : (pauseForKey s x).loaded = s.loaded := rfl
@[simp] theorem pauseForKey_events (s : State) (x : Nibble) : (pauseForKey s x).events = s.events := rfl
@[simp] theorem pauseForKey_draws (s : State) (x : Nibble) : (pauseForKey s x).draws = s.draws := rfl
@[simp] theorem pauseForKey_schedule (s : State) (x : Nibble) : (pauseForKey s x).schedule = s.schedule := rfl
@[simp] theorem pauseForKey_reg (s : State) (x : Nibble) (q : Nibble) : (pauseForKey s x).reg q = s.reg q := rfl
@[simp] theorem pauseForKey_memRead (s : State) (x : Nibble) (a : Nat) : memRead (pauseForKey s x) a = memRead s a := rfl

/-! ### stackClear -/

@[simp] theorem stackClear_cfg (s : State) : (stackClear s).cfg = s.cfg := rfl
@[simp] theorem stackClear_v (s : State) : (stackClear s).v = s.v := rfl
@[simp] theorem stackClear_i (s : State) : (stackClear s).i = s.i := rfl
@[simp] theorem stackClear_pc (s : State) : (stackClear s).pc = s.pc := rfl
@[simp] theorem stackClear_stack (s : State) : (stackClear s).stack = List.replicate s.cfg.stackDepth 0 := rfl
@[simp] theorem stackClear_sp (s : State) : (stackClear s).sp = 0 := rfl
@[simp] theorem stackClear_dt (s : State) : (stackClear s).dt = s.dt := rfl
@[simp] theorem stackClear_st (s : State) : (stackClear s).st = s.st := rfl
@[simp] theorem stackClear_ram (s : State) : (stackClear s).ram = s.ram := rfl
@[simp] theorem stackClear_display (s : State) : (stackClear s).display = s.display := rfl
@[simp] theorem stackClear_live (s : State) : (stackClear s).live = s.live := rfl
@[simp] theorem stackClear_locked (s : State) : (stackClear s).locked = s.locked := rfl
@[simp] theorem stackClear_cpu (s : State) : (stackClear s).cpu = s.cpu := rfl
@[simp] theorem stackClear_waitReg (s : State) : (stackClear s).waitReg = s.waitReg := rfl
@[simp] theorem stackClear_pendingKey (s : State) : (stackClear s).pendingKey = s.pendingKey := rfl
@[simp] theorem stackClear_tone (s : State) : (stackClear s).tone = s.tone := rfl
@[simp] theorem stackClear_fault (s : State) : (stackClear s).fault = s.fault := rfl
@[simp] theorem stackClear_loaded (s : State) : (stackClear s).loaded = s.loaded := rfl
@[simp] theorem stackClear_events (s : State) : (stackClear s).events = s.events := rfl
@[simp] theorem stackClear_draws (s : State) : (stackClear s).draws = s.draws := rfl
@[simp] theorem stackClear_schedule (s : State) : (stackClear s).schedule = s.schedule := rfl
@[simp] theorem stackClear_reg (s : State) (q : Nibble) : (stackClear s).reg q = s.reg q := rfl
@[simp] theorem stackClear_memRead (s : State) (a : Nat) : memRead (stackClear s) a = memRead s a := rfl

/-! ### displayClear -/

@[simp] theorem displayClear_cfg (s : State) : (displayClear s).cfg = s.cfg := rfl
@[simp] theorem displayClear_v (s : State) : (displayClear s).v = s.v := rfl
@[simp] theorem displayClear_i (s : State) : (displayClear s).i = s.i := rfl
@[simp] theorem displayClear_pc (s : State) : (displayClear s).pc = s.pc := rfl
@[simp] theorem displayClear_stack (s : State) : (displayClear s).stack = s.stack := rfl
@[simp] theorem displayClear_sp (s : State) : (displayClear s).sp = s.sp := rfl
@[simp] theorem displayClear_dt (s : State) : (displayClear s).dt = s.dt := rfl
@[simp] theorem displayClear_st (s : State) : (displayClear s).st = s.st := rfl
@[simp] theorem displayClear_ram (s : State) : (displayClear s).ram = s.ram := rfl
@[simp] theorem displayClear_display (s : State) : (displayClear s).display = Vector.replicate 32 0 := rfl
@[simp] theorem displayClear_live (s : State) : (displayClear s).live = s.live := rfl
@[simp] theorem displayClear_locked (s : State) : (displayClear s).locked = s.locked := rfl
@[simp] theorem displayClear_cpu (s : State) : (displayClear s).cpu = s.cpu := rfl
@[simp] theorem displayClear_waitReg (s : State) : (displayClear s).waitReg = s.waitReg := rfl
@[simp] theorem displayClear_pendingKey (s : State) : (displayClear s).pendingKey = s.pendingKey := rfl
@[simp] theorem displayClear_tone (s : State) : (displayClear s).tone = s.tone := rfl
@[simp] theorem displayClear_fault (s : State) : (displayClear s).fault = s.fault := rfl
@[simp] theorem displayClear_loaded (s : State) : (displayClear s).loaded = s.loaded := rfl
@[simp] theorem displayClear_events (s : State) : (displayClear s).events = s.events := rfl
@[simp] theorem displayClear_draws (s : State) : (displayClear s).draws = s.draws := rfl
@[simp] theorem displayClear_schedule (s : State) : (displayClear s).schedule = s.schedule := rfl
@[simp] theorem displayClear_reg (s : State) (q : Nibble) : (displayClear s).reg q = s.reg q := rfl
@[simp] theorem displayClear_memRead (s : State) (a : Nat) : memRead (displayClear s) a = memRead s a := rfl

/-! ### releaseKey -/

@[simp] theorem releaseKey_cfg (s : State) (k : Nibble) : (releaseKey s k).cfg = s.cfg := rfl
@[simp] theorem releaseKey_v (s : State) (k : Nibble) : (releaseKey s k).v = s.v := rfl
@[simp] theorem releaseKey_i (s : State) (k : Nibble) : (releaseKey s k).i = s.i := rfl
@[simp] theorem releaseKey_pc (s : State) (k : Nibble) : (releaseKey s k).pc = s.pc := rfl
@[simp] theorem releaseKey_stack (s : State) (k : Nibble) : (releaseKey s k).stack = s.stack := rfl
@[simp] theorem releaseKey_sp (s : State) (k : Nibble) : (releaseKey s k).sp = s.sp := rfl
@[simp] theorem releaseKey_dt (s : State) (k : Nibble) : (releaseKey s k).dt = s.dt := rfl
@[simp] theorem releaseKey_st (s : State) (k : Nibble) : (releaseKey s k).st = s.st := rfl
@[simp] theorem releaseKey_ram (s : State) (k : Nibble) : (releaseKey s k).ram = s.ram := rfl
@[simp] theorem releaseKey_display (s : State) (k : Nibble) : (releaseKey s k).display = s.display := rfl
@[simp] theorem releaseKey_live (s : State) (k : Nibble) : (releaseKey s k).live = s.live &&& ~~~(1#16 <<< k.toNat) := rfl
@[simp] theorem releaseKey_locked (s : State) (k : Nibble) : (releaseKey s k).locked = s.locked := rfl
@[simp] theorem releaseKey_cpu (s : State) (k : Nibble) : (releaseKey s k).cpu = s.cpu := rfl
@[simp] theorem releaseKey_waitReg (s : State) (k : Nibble) : (releaseKey s k).waitReg = s.waitReg := rfl
@[simp] theorem releaseKey_pendingKey (s : State) (k : Nibble) : (releaseKey s k).pendingKey = s.pendingKey := rfl
@[simp] theorem releaseKey_tone (s : State) (k : Nibble) : (releaseKey s k).tone = s.tone := rfl
@[simp] theorem releaseKey_fault (s : State) (k : Nibble) : (releaseKey s k).fault = s.fault := rfl
@[simp] theorem releaseKey_loaded (s : State) (k : Nibble) : (releaseKey s k).loaded = s.loaded := rfl
@[simp] theorem releaseKey_events (s : State) (k : Nibble) : (releaseKey s k).events = s.events := rfl
@[simp] theorem releaseKey_draws (s : State) (k : Nibble) : (releaseKey s k).draws = s.draws := rfl
@[simp] theorem releaseKey_schedule (s : State) (k : Nibble) : (releaseKey s k).schedule = s.schedule := rfl
@[simp] theorem releaseKey_reg (s : State) (k : Nibble) (q : Nibble) : (releaseKey s k).reg q = s.reg q := rfl
@[simp] theorem releaseKey_memRead (s : State) (k : Nibble) (a : Nat) : memRead (releaseKey s k) a = memRead s a := rfl

@[simp] theorem emitTone_start_tone (s : State) : (emitTone .start s).tone = .on := rfl
@[simp] theorem emitTone_stop_tone (s : State) : (emitTone .stop s).tone = .off := rfl

/-- A register write, read back at any register. -/
@[simp] theorem setReg_reg (s : State) (r q : Nibble) (b : Byte) : (s.setReg r b).reg q = if q = r then b else s.reg q := by
  unfold State.reg State.setReg
  rw [Vector.getElem_set]
  simp only [BitVec.toNat_inj]
  by_cases h : q = r
  · simp [h]
  · simp [h, Ne.symm h]

/-- Flag first, result last (R171): with x = F the result stays. -/
theorem setFlagThenReg_reg (s : State) (x q : Nibble) (f r : Byte) :
    (setFlagThenReg s x f r).reg q = if q = x then r else if q = vf then f else s.reg q := by
  simp [setFlagThenReg]

end Sys2Proof.Machine
end

