-- ==== Sys2Proof/Laws/Ops.lean ====
section
/-! SUPPORT. One lemma for each shared operation, saying once everything it can do, and the frames of the updates. -/

namespace Sys2Proof.Machine

/-! ### Outcomes -/

theorem finish_ok (s : State) : finish (.ok s) = .next s := rfl
theorem finish_error (f : Fault) : finish (.error f) = .fault f := rfl

/-! ### The register file -/

/-- A register index of an opcode is always inside the register file (R33). -/
theorem regFileRead_nibble (s : State) (r : Nibble) : regFileRead s r.toNat = .ok (s.reg r) := by
  simp [regFileRead, State.reg, show r.toNat < 16 from r.isLt]

theorem regFileRead_ok {s : State} {k : Nat} (h : k < 16) : regFileRead s k = .ok (s.reg (BitVec.ofNat 4 k)) := by
  have : (BitVec.ofNat 4 k).toNat = k := by simp; omega
  simp [regFileRead, State.reg, h, this]

/-- An index above 15 is a range fault (R33). -/
theorem regFileRead_error {s : State} {k : Nat} (h : 16 ≤ k) : regFileRead s k = .error (.memoryRange k) := by
  simp [regFileRead, Nat.not_lt.mpr h]

theorem regFileWrite_ok {s : State} {k : Nat} (b : Byte) (h : k < 16) :
    regFileWrite s k b = .ok (s.setReg (BitVec.ofNat 4 k) b) := by
  have : (BitVec.ofNat 4 k).toNat = k := by simp; omega
  simp [regFileWrite, State.setReg, h, this]

/-- The first registers, in order. -/
theorem readRegs_ok {n : Nat} {s : State} {k : Nat} (h : k + n ≤ 16) :
    readRegs n s k = .ok ((List.range n).map (fun j => s.reg (BitVec.ofNat 4 (k + j)))) := by
  induction n generalizing k with
  | zero => rfl
  | succ n ih =>
    have hr := ih (k := k + 1) (by omega)
    simp only [readRegs, regFileRead_ok (show k < 16 by omega), hr, List.range_succ_eq_map, List.map_cons,
      List.map_map, Nat.add_zero]
    congr 2
    refine List.map_congr_left fun j _ => ?_
    simp [Nat.add_assoc, Nat.add_comm 1 j]

/-- Loading registers in order: what every register holds afterwards, and that nothing else changes. -/
theorem writeRegs_ok {bs : List Byte} {s : State} {k : Nat} (h : k + bs.length ≤ 16) :
    ∃ v, writeRegs bs s k = .ok { s with v := v } ∧
      ∀ r : Nibble, ({ s with v := v } : State).reg r =
        if k ≤ r.toNat then (bs[r.toNat - k]?).getD (s.reg r) else s.reg r := by
  induction bs generalizing s k with
  | nil => exact ⟨s.v, rfl, fun r => by simp⟩
  | cons b bs ih =>
    simp only [List.length_cons] at h
    obtain ⟨v, hw, hr⟩ := ih (s := s.setReg (BitVec.ofNat 4 k) b) (k := k + 1) (by omega)
    refine ⟨v, ?_, fun r => ?_⟩
    · simp only [writeRegs, regFileWrite_ok b (show k < 16 by omega), hw]
      rfl
    · have hk : (BitVec.ofNat 4 k).toNat = k := by simp; omega
      have := hr r
      rw [setReg_reg] at this
      change ({ s with v := v } : State).reg r = _ at this
      rw [this]
      rcases Nat.lt_trichotomy r.toNat k with he | he | he
      · have hne : r ≠ BitVec.ofNat 4 k := fun hq => by rw [hq] at he; omega
        rw [if_neg (by omega), if_neg hne, if_neg (by omega)]
      · have heq : r = BitVec.ofNat 4 k := BitVec.eq_of_toNat_eq (by omega)
        rw [if_neg (by omega), if_pos heq, if_pos (by omega)]
        simp [he]
      · have hne : r ≠ BitVec.ofNat 4 k := fun hq => by rw [hq] at he; omega
        rw [if_pos (by omega), if_neg hne, if_pos (by omega)]
        obtain ⟨j, hj⟩ : ∃ j, r.toNat = k + 1 + j := ⟨r.toNat - (k + 1), by omega⟩
        rw [show r.toNat - k = j + 1 by omega, show r.toNat - (k + 1) = j by omega]
        simp

/-! ### PC and the skips -/

@[simp] theorem skipIf_true (s : State) : skipIf true s = skipNext s := rfl
@[simp] theorem skipIf_false (s : State) : skipIf false s = s := rfl

/-- What a skip does to PC (R140). -/
theorem skipIf_pc (c : Bool) (s : State) :
    (skipIf c s).pc.toNat = (s.pc.toNat + if c then 2 else 0) % 65536 := by
  have := s.pc.isLt
  cases c
  · change s.pc.toNat = (s.pc.toNat + 0) % 65536
    omega
  · simp [skipNext]

/-- A skip changes nothing but PC (R150). -/
theorem skipIf_eq (c : Bool) (s : State) : skipIf c s = s.setPc (s.pc.toNat + if c then 2 else 0) := by
  cases c
  · simp [skipIf, State.setPc]
  · rfl

/-! ### The stack -/

/-- A push on a stack that is not full (R40). -/
theorem push_ok {s : State} (v : Word) (h : s.sp < s.cfg.stackDepth) :
    push s v = .ok { s with stack := s.stack.set s.sp v, sp := s.sp + 1 } :=
  if_pos h

/-- A push on a full stack (R40). -/
theorem push_error {s : State} (v : Word) (h : s.cfg.stackDepth ≤ s.sp) : push s v = .error .stackOverflow :=
  if_neg (Nat.not_lt.mpr h)

/-- A pop of a stack that is not empty (R41). -/
theorem pop_ok {s : State} (h : 0 < s.sp) :
    pop s = .ok ((s.stack[s.sp - 1]?).getD 0, { s with sp := s.sp - 1 }) := by
  obtain ⟨n, hn⟩ : ∃ n, s.sp = n + 1 := ⟨s.sp - 1, by omega⟩
  simp [pop, hn]

/-- A pop of an empty stack (R41). -/
theorem pop_error {s : State} (h : s.sp = 0) : pop s = .error .stackUnderflow := by simp [pop, h]

/-! ### Timers and the tone -/

/-- What `SoundSet` does (R272): the value, and one event at most. -/
theorem soundSet_eq (s : State) (b : Byte) :
    soundSet s b =
      { s with
        st := b
        events := s.events ++ (if 0 < b.toNat then [.start] else if 0 < s.st.toNat then [.stop] else [])
        tone := if 0 < b.toNat then .on else if 0 < s.st.toNat then .off else s.tone } := by
  unfold soundSet
  split
  · rfl
  · split <;> simp [emitTone]

/-- What `SoundTick` does (R273). -/
theorem soundTick_eq (s : State) :
    soundTick s =
      if 0 < s.st.toNat then
        { s with
          st := s.st - 1
          events := s.events ++ (if 0 < (s.st - 1).toNat then [.start] else [.stop])
          tone := if 0 < (s.st - 1).toNat then .on else .off }
      else s := by
  unfold soundTick
  split
  · split <;> rfl
  · rfl

/-- What `DelayTick` does (R270). -/
theorem delayTick_eq (s : State) :
    delayTick s = { s with dt := if 0 < s.dt.toNat then s.dt - 1 else s.dt } := by
  unfold delayTick
  split <;> rfl

/-! ### Keys -/

/-- What a key press does (R323, R285). -/
theorem pressKey_eq (s : State) (k : Nibble) :
    pressKey s k =
      if keyBit s.live k.toNat then s
      else
        { s with
          live := s.live ||| (1#16 <<< k.toNat)
          pendingKey := if s.cpu = .paused ∧ s.pendingKey = none then some k else s.pendingKey } := by
  unfold pressKey latchEdge
  split
  · rfl
  · obtain ⟨cfg, v, i, pc, stack, sp, dt, st, ram, display, live, locked, cpu, waitReg, pendingKey, tone, fault, loaded,
      events, draws, schedule⟩ := s
    cases cpu <;> cases pendingKey <;> simp

/-- What the resume attempt does (R286). -/
theorem resumeIfEdge_none {s : State} (h : s.pendingKey = none) : resumeIfEdge s = s := by simp [resumeIfEdge, h]

theorem resumeIfEdge_some {s : State} {k : Nibble} (h : s.pendingKey = some k) :
    resumeIfEdge s = { s.setReg s.waitReg (k.zeroExtend 8) with cpu := .running, pendingKey := none } := by
  simp [resumeIfEdge, h]

/-- The key test: the state changes only by a draw (R281). -/
theorem keyTest_key {s : State} {x : Nibble} (h : (s.reg x).toNat ≤ 15) :
    keyTest s x = (keyBit s.locked (s.reg x).toNat, s) :=
  if_pos h

theorem keyTest_draw {s : State} {x : Nibble} (h : 15 < (s.reg x).toNat) : keyTest s x = drawBool s :=
  if_neg (Nat.not_le.mpr h)

/-! ### The display -/

/-- One drawn byte touches one row. -/
theorem displaySet_other (d : Vector Row 32) (x y : Nat) (b : Byte) {k : Nat} (h : k ≠ y % 32) :
    (displaySet d x y b).1[k]? = d[k]? := by
  simp [displaySet, Ne.symm h]

/-- The drawn row (R240). -/
theorem displaySet_same (d : Vector Row 32) (x y : Nat) (b : Byte) :
    (displaySet d x y b).1[y % 32]? = (d[y % 32]?).map (fun old => old ^^^ spriteRow (x % 64) b) := by
  have h : y % 32 < 32 := Nat.mod_lt y (by decide)
  simp [displaySet, h]

theorem drawRows_nil (x y : Nat) (d : Vector Row 32) (c : Bool) : drawRows x y [] d c = (d, c) := rfl

theorem drawRows_cons (x y : Nat) (b : Byte) (bs : List Byte) (d : Vector Row 32) (c : Bool) :
    drawRows x y (b :: bs) d c =
      drawRows x (y + 1) bs (displaySet d x y b).1 (c || (displaySet d x y b).2) := rfl

/-- A sprite leaves every row it does not reach as it was. -/
theorem drawRows_other (x : Nat) {y k : Nat} (bs : List Byte) (d : Vector Row 32) (c : Bool)
    (h : ∀ j, j < bs.length → k ≠ (y + j) % 32) : (drawRows x y bs d c).1[k]? = d[k]? := by
  induction bs generalizing y d c with
  | nil => rfl
  | cons b bs ih =>
    rw [drawRows_cons, ih _ _ (fun j hj => by have := h (j + 1) (by simpa using hj); rwa [Nat.add_assoc, Nat.add_comm 1 j])]
    exact displaySet_other d x y b (by simpa using h 0 (by simp))

/-! ### Block writes change RAM only -/

theorem writeBytes_frame {bs : List Byte} {s t : State} {a : Nat} (h : writeBytes bs s a = .ok t) :
    ∃ m : Memory, t = { s with ram := m } ∧ (Memory.wf s.cfg s.ram → Memory.wf s.cfg m) := by
  by_cases hb : bs = [] ∨ a + bs.length ≤ s.cfg.memSize
  · obtain ⟨m, hm, hwf, -⟩ := writeBytes_ok hb
    rw [hm] at h
    exact ⟨m, (Except.ok.inj h).symm, hwf⟩
  · rw [writeBytes_error (fun h0 => hb (.inl h0)) (by omega)] at h
    cases h

/-! ### Frames -/

theorem Frame.mono {w w' : Part → Prop} {s t : State} (h : Frame w s t) (hw : ∀ p, w p → w' p) : Frame w' s t :=
  fun p hp => h p (fun hq => hp (hw p hq))

theorem Frame.refl (w : Part → Prop) (s : State) : Frame w s s := by
  intro p _
  cases p <;> rfl

theorem Part.same_trans {p : Part} {s t u : State} (h : p.same s t) (k : p.same t u) : p.same s u := by
  cases p <;> simp only [Part.same] at * <;> rw [k, h]

theorem Frame.trans {w : Part → Prop} {s t u : State} (h : Frame w s t) (k : Frame w t u) : Frame w s u :=
  fun p hp => Part.same_trans (h p hp) (k p hp)

/-- Writing a register changes that register. -/
theorem frame_setReg (s : State) (r : Nibble) (b : Byte) : Frame (· = .reg r) s (s.setReg r b) := by
  intro p hp
  cases p with
  | reg q => simp only [Part.same, setReg_reg]; rw [if_neg (by rintro rfl; exact hp rfl)]
  | _ => rfl

/-- An instruction with a flag changes its destination and VF. -/
theorem frame_setFlagThenReg (s : State) (x : Nibble) (flag result : Byte) :
    Frame (fun p => p = .reg x ∨ p = .reg vf) s (setFlagThenReg s x flag result) :=
  ((frame_setReg s vf flag).mono fun _ h => .inr h).trans ((frame_setReg (s.setReg vf flag) x result).mono fun _ h => .inl h)

/-- Assigning PC changes PC. -/
theorem frame_setPc (s : State) (n : Nat) : Frame (· = .pc) s (s.setPc n) := by
  intro p hp
  cases p with
  | pc => exact absurd rfl hp
  | _ => rfl

/-- Assigning I changes I. -/
theorem frame_setI (s : State) (n : Nat) : Frame (· = .index) s (s.setI n) := by
  intro p hp
  cases p with
  | index => exact absurd rfl hp
  | _ => rfl

/-- A block write changes the bytes it stores to. -/
theorem frame_writeBytes {bs : List Byte} {s t : State} {a : Nat} (h : writeBytes bs s a = .ok t) :
    Frame (fun p => ∃ k, k < bs.length ∧ p = .byte (a + k)) s t := by
  by_cases hb : bs = [] ∨ a + bs.length ≤ s.cfg.memSize
  · obtain ⟨m, hm, -, hr⟩ := writeBytes_ok hb
    rw [hm] at h
    obtain rfl := Except.ok.inj h
    intro p hp
    cases p with
    | byte e =>
      refine memRead_congr rfl ?_
      rw [hr e]
      split
      · rename_i he
        rw [List.getElem?_eq_none (by
          by_contra hlt
          exact hp ⟨e - a, by omega, by congr 1; omega⟩)]
        rfl
      · rfl
    | _ => rfl
  · rw [writeBytes_error (fun h0 => hb (.inl h0)) (by omega)] at h
    cases h

end Sys2Proof.Machine
end

