-- ==== Sys2Proof/Laws/Exec.lean ====
section
/-! SUPPORT. What every instruction keeps: the configuration, the fault report, the model's own fields that belong to
the host, and the canonical form of RAM. -/

namespace Sys2Proof.Machine

/-- The parts of the state no instruction writes, and the form of RAM every instruction keeps. -/
structure Kept (s t : State) : Prop where
  cfg : t.cfg = s.cfg
  fault : t.fault = s.fault
  loaded : t.loaded = s.loaded
  schedule : t.schedule = s.schedule
  locked : t.locked = s.locked
  ram : Memory.wf s.cfg s.ram → Memory.wf s.cfg t.ram

theorem Kept.refl (s : State) : Kept s s := ⟨rfl, rfl, rfl, rfl, rfl, id⟩

/-- A key test draws at most one free value. -/
theorem keyTest_kept (s : State) (x : Nibble) : Kept s (keyTest s x).2 := by
  unfold keyTest
  split
  · exact .refl s
  · exact ⟨rfl, rfl, rfl, rfl, rfl, id⟩

theorem skipIf_kept {s t : State} (c : Bool) (h : Kept s t) : Kept s (skipIf c t) := by
  rw [skipIf_eq]
  exact ⟨h.cfg, h.fault, h.loaded, h.schedule, h.locked, h.ram⟩

/-- A block write, then an assignment of I at most. -/
theorem writeBytes_kept {bs : List Byte} {s t : State} {a : Nat} (h : writeBytes bs s a = .ok t) : Kept s t := by
  obtain ⟨m, rfl, hw⟩ := writeBytes_frame h
  exact ⟨rfl, rfl, rfl, rfl, rfl, hw⟩

/-- Loading registers writes only registers, whether or not the indices are in range. -/
theorem writeRegs_kept {bs : List Byte} {s t : State} {k : Nat} (h : writeRegs bs s k = .ok t) : Kept s t := by
  induction bs generalizing s k with
  | nil => obtain rfl := Except.ok.inj h; exact .refl s
  | cons b bs ih =>
    unfold writeRegs at h
    split at h
    · cases h
    · rename_i u hu
      have hk := ih h
      unfold regFileWrite at hu
      split at hu
      · obtain rfl := Except.ok.inj hu
        exact ⟨hk.cfg, hk.fault, hk.loaded, hk.schedule, hk.locked, hk.ram⟩
      · cases hu

/-- What every instruction keeps. -/
theorem exec_kept {i : Instr} {s t : State} (h : exec i s = .next t) : Kept s t := by
  cases i
  case ret =>
    simp only [exec, execRet, pop] at h
    split at h
    · cases h
    · rename_i hp
      split at hp <;> cases hp
      cases h
      exact ⟨rfl, rfl, rfl, rfl, rfl, id⟩
  case call =>
    simp only [exec, execCall, push] at h
    split at h
    · cases h
    · rename_i hp
      split at hp <;> cases hp
      cases h
      exact ⟨rfl, rfl, rfl, rfl, rfl, id⟩
  case addImm x kk =>
    simp only [exec, execAddImm] at h
    cases h
    cases s.cfg.addImmSetsVf <;> exact ⟨rfl, rfl, rfl, rfl, rfl, id⟩
  case drw =>
    simp only [exec, execDrw] at h
    split at h <;> cases h
    exact ⟨rfl, rfl, rfl, rfl, rfl, id⟩
  case ldB =>
    simp only [exec, execLdB, finish] at h
    split at h <;> cases h
    rename_i hp
    exact writeBytes_kept hp
  case stRegs =>
    simp only [exec, execStRegs] at h
    split at h
    · cases h
    · split at h <;> cases h
      rename_i hp
      have hk := writeBytes_kept hp
      exact ⟨hk.cfg, hk.fault, hk.loaded, hk.schedule, hk.locked, hk.ram⟩
  case ldRegs =>
    simp only [exec, execLdRegs] at h
    split at h
    · cases h
    · split at h <;> cases h
      rename_i hp
      have hk := writeRegs_kept hp
      exact ⟨hk.cfg, hk.fault, hk.loaded, hk.schedule, hk.locked, hk.ram⟩
  case ldStVx =>
    simp only [exec, execLdStVx, soundSet_eq] at h
    cases h
    exact ⟨rfl, rfl, rfl, rfl, rfl, id⟩
  case skp =>
    cases h
    exact skipIf_kept _ (keyTest_kept ..)
  case sknp =>
    cases h
    exact skipIf_kept _ (keyTest_kept ..)
  all_goals
    cases h
    first
      | exact ⟨rfl, rfl, rfl, rfl, rfl, id⟩
      | exact skipIf_kept _ (.refl s)

end Sys2Proof.Machine
end

