-- ==== Sys2Proof/Laws/PerInstr.lean ====
section
/-! SUPPORT. The family `MapRow`: the opcode of every instruction selects the row of the opcode map that bears the
instruction's mnemonic (`30_encoding.md` R111), one lemma per constructor. -/

namespace Sys2Proof.Laws.MapRow

/-- The instruction's opcode selects a row of R111, and the row is the instruction's own. -/
def Statement (i : Instr) : Prop := ∃ r ∈ opcodeRows, r.mnemonic = i.mnemonic ∧ r.selects (encode i) = true

/-- A row whose fixed bits are the high nibble alone, over `h ++ nnn`. -/
theorem selects_nnn (h : Nibble) (nnn : Addr12) (m : String) :
    (OpcodeRow.mk m (packNNN h 0) 0xF000).selects (packNNN h nnn) = true := by
  simp only [OpcodeRow.selects, decide_eq_true_eq]
  refine BitVec.eq_of_getLsbD_eq fun j hj => ?_
  simp only [packNNN, BitVec.getLsbD_and, BitVec.getLsbD_append]
  interval_cases j <;> simp

/-- A row whose fixed bits are the high nibble alone, over `h ++ x ++ kk`. -/
theorem selects_kk (h x : Nibble) (kk : Byte) (m : String) :
    (OpcodeRow.mk m (packXKK h 0 0) 0xF000).selects (packXKK h x kk) = true := by
  simp only [OpcodeRow.selects, decide_eq_true_eq]
  refine BitVec.eq_of_getLsbD_eq fun j hj => ?_
  simp only [packXKK, BitVec.getLsbD_and, BitVec.getLsbD_append]
  interval_cases j <;> simp

/-- A row whose fixed bits are the high nibble and the low byte. -/
theorem selects_lowByte (h x : Nibble) (kk : Byte) (m : String) :
    (OpcodeRow.mk m (packXKK h 0 kk) 0xF0FF).selects (packXKK h x kk) = true := by
  simp only [OpcodeRow.selects, decide_eq_true_eq]
  refine BitVec.eq_of_getLsbD_eq fun j hj => ?_
  simp only [packXKK, BitVec.getLsbD_and, BitVec.getLsbD_append]
  interval_cases j <;> simp

/-- A row whose fixed bits are the high nibble and the low nibble. -/
theorem selects_lowNibble (h x y n : Nibble) (m : String) :
    (OpcodeRow.mk m (packXYN h 0 0 n) 0xF00F).selects (packXYN h x y n) = true := by
  simp only [OpcodeRow.selects, decide_eq_true_eq]
  refine BitVec.eq_of_getLsbD_eq fun j hj => ?_
  simp only [packXYN, BitVec.getLsbD_and, BitVec.getLsbD_append]
  interval_cases j <;> simp

/-- A row whose fixed bits are the high nibble alone, over `h ++ x ++ y ++ n`. -/
theorem selects_xyn (h x y n : Nibble) (m : String) :
    (OpcodeRow.mk m (packXYN h 0 0 0) 0xF000).selects (packXYN h x y n) = true := by
  simp only [OpcodeRow.selects, decide_eq_true_eq]
  refine BitVec.eq_of_getLsbD_eq fun j hj => ?_
  simp only [packXYN, BitVec.getLsbD_and, BitVec.getLsbD_append]
  interval_cases j <;> simp

theorem cls : Statement .cls := ⟨⟨"CLS", 0x00E0, 0xFFFF⟩, by decide, rfl, by decide⟩
theorem ret : Statement .ret := ⟨⟨"RET", 0x00EE, 0xFFFF⟩, by decide, rfl, by decide⟩
theorem jp (nnn : Addr12) : Statement (.jp nnn) := ⟨⟨"JP_nnn", 0x1000, 0xF000⟩, by decide, rfl, selects_nnn 1 nnn _⟩
theorem call (nnn : Addr12) : Statement (.call nnn) :=
  ⟨⟨"CALL_nnn", 0x2000, 0xF000⟩, by decide, rfl, selects_nnn 2 nnn _⟩
theorem seImm (x : Nibble) (kk : Byte) : Statement (.seImm x kk) :=
  ⟨⟨"SE_Vx__kk", 0x3000, 0xF000⟩, by decide, rfl, selects_kk 3 x kk _⟩
theorem sneImm (x : Nibble) (kk : Byte) : Statement (.sneImm x kk) :=
  ⟨⟨"SNE_Vx__kk", 0x4000, 0xF000⟩, by decide, rfl, selects_kk 4 x kk _⟩
theorem seReg (x y : Nibble) : Statement (.seReg x y) :=
  ⟨⟨"SE_Vx__Vy", 0x5000, 0xF00F⟩, by decide, rfl, selects_lowNibble 5 x y 0 _⟩
theorem ldImm (x : Nibble) (kk : Byte) : Statement (.ldImm x kk) :=
  ⟨⟨"LD_Vx__kk", 0x6000, 0xF000⟩, by decide, rfl, selects_kk 6 x kk _⟩
theorem addImm (x : Nibble) (kk : Byte) : Statement (.addImm x kk) :=
  ⟨⟨"ADD_Vx__kk", 0x7000, 0xF000⟩, by decide, rfl, selects_kk 7 x kk _⟩
theorem ldReg (x y : Nibble) : Statement (.ldReg x y) :=
  ⟨⟨"LD_Vx__Vy", 0x8000, 0xF00F⟩, by decide, rfl, selects_lowNibble 8 x y 0 _⟩
theorem orReg (x y : Nibble) : Statement (.orReg x y) :=
  ⟨⟨"OR_Vx__Vy", 0x8001, 0xF00F⟩, by decide, rfl, selects_lowNibble 8 x y 1 _⟩
theorem andReg (x y : Nibble) : Statement (.andReg x y) :=
  ⟨⟨"AND_Vx__Vy", 0x8002, 0xF00F⟩, by decide, rfl, selects_lowNibble 8 x y 2 _⟩
theorem xorReg (x y : Nibble) : Statement (.xorReg x y) :=
  ⟨⟨"XOR_Vx__Vy", 0x8003, 0xF00F⟩, by decide, rfl, selects_lowNibble 8 x y 3 _⟩
theorem addReg (x y : Nibble) : Statement (.addReg x y) :=
  ⟨⟨"ADD_Vx__Vy", 0x8004, 0xF00F⟩, by decide, rfl, selects_lowNibble 8 x y 4 _⟩
theorem subReg (x y : Nibble) : Statement (.subReg x y) :=
  ⟨⟨"SUB_Vx__Vy", 0x8005, 0xF00F⟩, by decide, rfl, selects_lowNibble 8 x y 5 _⟩
theorem shr (x y : Nibble) : Statement (.shr x y) :=
  ⟨⟨"SHR_Vx__Vy", 0x8006, 0xF00F⟩, by decide, rfl, selects_lowNibble 8 x y 6 _⟩
theorem subn (x y : Nibble) : Statement (.subn x y) :=
  ⟨⟨"SUBN_Vx__Vy", 0x8007, 0xF00F⟩, by decide, rfl, selects_lowNibble 8 x y 7 _⟩
theorem shl (x y : Nibble) : Statement (.shl x y) :=
  ⟨⟨"SHL_Vx__Vy", 0x800E, 0xF00F⟩, by decide, rfl, selects_lowNibble 8 x y 0xE _⟩
theorem sneReg (x y : Nibble) : Statement (.sneReg x y) :=
  ⟨⟨"SNE_Vx__Vy", 0x9000, 0xF00F⟩, by decide, rfl, selects_lowNibble 9 x y 0 _⟩
theorem ldI (nnn : Addr12) : Statement (.ldI nnn) :=
  ⟨⟨"LD_I__nnn", 0xA000, 0xF000⟩, by decide, rfl, selects_nnn 0xA nnn _⟩
theorem jpV0 (nnn : Addr12) : Statement (.jpV0 nnn) :=
  ⟨⟨"JP_V0__nnn", 0xB000, 0xF000⟩, by decide, rfl, selects_nnn 0xB nnn _⟩
theorem rnd (x : Nibble) (kk : Byte) : Statement (.rnd x kk) :=
  ⟨⟨"RND_Vx__kk", 0xC000, 0xF000⟩, by decide, rfl, selects_kk 0xC x kk _⟩
theorem drw (x y n : Nibble) : Statement (.drw x y n) :=
  ⟨⟨"DRW_Vx__Vy__n", 0xD000, 0xF000⟩, by decide, rfl, selects_xyn 0xD x y n _⟩
theorem skp (x : Nibble) : Statement (.skp x) :=
  ⟨⟨"SKP_Vx", 0xE09E, 0xF0FF⟩, by decide, rfl, selects_lowByte 0xE x 0x9E _⟩
theorem sknp (x : Nibble) : Statement (.sknp x) :=
  ⟨⟨"SKNP_Vx", 0xE0A1, 0xF0FF⟩, by decide, rfl, selects_lowByte 0xE x 0xA1 _⟩
theorem ldVxDt (x : Nibble) : Statement (.ldVxDt x) :=
  ⟨⟨"LD_Vx__DT", 0xF007, 0xF0FF⟩, by decide, rfl, selects_lowByte 0xF x 0x07 _⟩
theorem ldVxK (x : Nibble) : Statement (.ldVxK x) :=
  ⟨⟨"LD_Vx__K", 0xF00A, 0xF0FF⟩, by decide, rfl, selects_lowByte 0xF x 0x0A _⟩
theorem ldDtVx (x : Nibble) : Statement (.ldDtVx x) :=
  ⟨⟨"LD_DT__Vx", 0xF015, 0xF0FF⟩, by decide, rfl, selects_lowByte 0xF x 0x15 _⟩
theorem ldStVx (x : Nibble) : Statement (.ldStVx x) :=
  ⟨⟨"LD_ST__Vx", 0xF018, 0xF0FF⟩, by decide, rfl, selects_lowByte 0xF x 0x18 _⟩
theorem addI (x : Nibble) : Statement (.addI x) :=
  ⟨⟨"ADD_I__Vx", 0xF01E, 0xF0FF⟩, by decide, rfl, selects_lowByte 0xF x 0x1E _⟩
theorem ldF (x : Nibble) : Statement (.ldF x) :=
  ⟨⟨"LD_F__Vx", 0xF029, 0xF0FF⟩, by decide, rfl, selects_lowByte 0xF x 0x29 _⟩
theorem ldB (x : Nibble) : Statement (.ldB x) :=
  ⟨⟨"LD_B__Vx", 0xF033, 0xF0FF⟩, by decide, rfl, selects_lowByte 0xF x 0x33 _⟩
theorem stRegs (x : Nibble) : Statement (.stRegs x) :=
  ⟨⟨"LD__I___Vx", 0xF055, 0xF0FF⟩, by decide, rfl, selects_lowByte 0xF x 0x55 _⟩
theorem ldRegs (x : Nibble) : Statement (.ldRegs x) :=
  ⟨⟨"LD_Vx___I", 0xF065, 0xF0FF⟩, by decide, rfl, selects_lowByte 0xF x 0x65 _⟩

end Sys2Proof.Laws.MapRow
end

