-- ==== Sys2Proof/Laws/Step.lean ====
section
/-! SUPPORT. What a fetch, a CPU tick, a host operation and a step can do, each said once. -/

namespace Sys2Proof.Machine

/-! ### The fetch -/

/-- A fetch whose two bytes are in RAM (R104). -/
theorem fetch_ok {s : State} (h : s.pc.toNat + 1 < s.cfg.memSize) :
    fetch s = .ok (joinBytes (Memory.read s.cfg s.ram s.pc.toNat) (Memory.read s.cfg s.ram (s.pc.toNat + 1)),
      s.setPc (s.pc.toNat + 2)) := by
  simp only [fetch, memRead_ok (show s.pc.toNat < s.cfg.memSize by omega), memRead_ok h]

/-- A fetch that answers a word: where its bytes stood, and the state it leaves. -/
theorem fetch_cases {s t : State} {w : Word} (h : fetch s = .ok (w, t)) :
    s.pc.toNat + 1 < s.cfg.memSize ∧ t = s.setPc (s.pc.toNat + 2) ∧
      w = joinBytes (Memory.read s.cfg s.ram s.pc.toNat) (Memory.read s.cfg s.ram (s.pc.toNat + 1)) := by
  unfold fetch at h
  split at h
  · cases h
  · rename_i hi hhi
    split at h
    · cases h
    · rename_i lo hlo
      have h1 : s.pc.toNat + 1 < s.cfg.memSize := by
        by_contra hge
        rw [memRead_error (Nat.not_lt.mp hge)] at hlo
        cases hlo
      rw [memRead_ok (by omega)] at hhi
      rw [memRead_ok h1] at hlo
      cases hhi
      cases hlo
      cases h
      exact ⟨h1, rfl, rfl⟩

/-! ### The tick -/

/-- A tick is not refused exactly in the states `Ticks` names. -/
theorem tickRefusal_none {s : State} : tickRefusal s = none ↔ Ticks s := by
  unfold tickRefusal
  constructor
  · intro h
    cases hc : s.cfg.wellFormed <;> cases hl : s.loaded <;> cases hf : s.fault <;> simp [hc, hl, hf] at h
    exact ⟨hc, hl, hf⟩
  · rintro ⟨hc, hl, hf⟩
    simp [hc, hl, hf]

/-- A PAUSED tick (R284). -/
theorem cpuTick_paused {s : State} (h : Ticks s) (hp : s.cpu = .paused) :
    cpuTick s = .next (resumeIfEdge (inputLock s)) := by
  simp [cpuTick, tickRefusal_none.mpr h, hp]

/-- A RUNNING tick (R105). -/
theorem cpuTick_running {s : State} (h : Ready s) : cpuTick s = fetchAndExecute (inputLock s) := by
  simp [cpuTick, tickRefusal_none.mpr h.toTicks, h.running]

/-- A RUNNING tick whose opcode the decoder accepts runs that instruction. -/
theorem fetchAndExecute_next {s t : State} (h : fetchAndExecute s = .next t) :
    ∃ w i, fetch s = .ok (w, s.setPc (s.pc.toNat + 2)) ∧ decode w = .ok i ∧
      exec i (s.setPc (s.pc.toNat + 2)) = .next t := by
  unfold fetchAndExecute at h
  split at h
  · cases h
  · rename_i w u hf
    obtain ⟨-, rfl, -⟩ := fetch_cases hf
    split at h
    · cases h
    · rename_i i hi
      exact ⟨w, i, hf, hi, h⟩

/-- Everything a CPU tick that answers a next state can have done. -/
theorem cpuTick_next {s t : State} (h : cpuTick s = .next t) :
    Ticks s ∧ ((s.cpu = .paused ∧ t = resumeIfEdge (inputLock s)) ∨
      (s.cpu = .running ∧ ∃ w i, fetch (inputLock s) = .ok (w, fetched s) ∧ decode w = .ok i ∧
        exec i (fetched s) = .next t)) := by
  unfold cpuTick at h
  split at h
  · cases h
  · rename_i hr
    refine ⟨tickRefusal_none.mp hr, ?_⟩
    split at h
    · rename_i hp
      exact .inl ⟨hp, (Host.Outcome.next.inj h).symm⟩
    · rename_i hp
      obtain ⟨w, i, hf, hd, he⟩ := fetchAndExecute_next h
      exact .inr ⟨hp, w, i, hf, hd, he⟩

/-! ### The host operations -/

/-- A timer tick that is not refused (R322). -/
theorem timerTick_ok {s : State} (h : Ticks s) : timerTick s = .next (soundTick (delayTick s)) := by
  simp [timerTick, tickRefusal_none.mpr h]

theorem timerTick_next {s t : State} (h : timerTick s = .next t) : Ticks s ∧ t = soundTick (delayTick s) := by
  unfold timerTick at h
  split at h
  · cases h
  · rename_i hr
    exact ⟨tickRefusal_none.mp hr, (Host.Outcome.next.inj h).symm⟩

/-- What the reset of a load leaves, before the image is written: the reset state, but for what the load does not
touch (R51), and the stop() of a tone that was on (D29). -/
theorem resetCore_eq (s : State) :
    resetCore s =
      { State.reset with
        cfg := s.cfg
        pc := BitVec.ofNat 16 s.cfg.programStart
        stack := List.replicate s.cfg.stackDepth 0
        live := s.live
        events := s.events ++ (if 0 < s.st.toNat then [.stop] else [])
        draws := s.draws
        schedule := s.schedule } := by
  simp only [resetCore, soundClear, soundSet_eq]
  rfl

/-- A load of an image that fits: what RAM reads as afterwards (R341, R344), and that nothing else is written after the
reset. -/
theorem loadImage_ok {image : List Byte} {s : State} (h : s.cfg.programStart + image.length ≤ s.cfg.memSize) :
    ∃ m : Memory, loadImage image s = .ok { resetCore s with ram := m } ∧ Memory.wf s.cfg m ∧
      ∀ e, Memory.read s.cfg m e = if s.cfg.programStart ≤ e
        then (image[e - s.cfg.programStart]?).getD (resetByte s.cfg e) else resetByte s.cfg e := by
  have hc : (resetCore s).cfg = s.cfg := by rw [resetCore_eq]
  obtain ⟨m, hm, hwf, hr⟩ := writeBytes_ok (bs := image) (s := resetCore s) (a := s.cfg.programStart)
    (.inr (by rw [hc]; exact h))
  rw [hc] at hwf hr
  exact ⟨m, hm, hwf ⟨List.Pairwise.nil, fun p hp => absurd hp (List.not_mem_nil)⟩, fun e => hr e⟩

/-- A load of an image that does not fit faults at `MEM_SIZE` (R346). -/
theorem loadImage_error {image : List Byte} {s : State} (hc : s.cfg.programStart < s.cfg.memSize)
    (h : s.cfg.memSize < s.cfg.programStart + image.length) :
    loadImage image s = .error (.memoryRange s.cfg.memSize) := by
  have hcfg : (resetCore s).cfg = s.cfg := by rw [resetCore_eq]
  unfold loadImage
  rw [writeBytes_error (by rintro rfl; simp at h; omega) (by rw [hcfg]; exact h), hcfg, Nat.max_eq_right (by omega)]

/-- A load that answers a next state (R341). -/
theorem loadOp_next {image : Option (List Byte)} {s t : State} (h : loadOp image s = .next t) :
    ∃ bytes, image = some bytes ∧ s.cfg.wellFormed = true ∧ loadImage bytes s = .ok t := by
  unfold loadOp load at h
  cases hc : s.cfg.wellFormed with
  | false => simp [hc] at h
  | true =>
    cases image with
    | none => simp [hc] at h
    | some bytes =>
      cases hl : loadImage bytes s with
      | error f => simp [hc, hl, raise] at h
      | ok u =>
        simp [hc, hl] at h
        exact ⟨bytes, rfl, rfl, h ▸ hl⟩

theorem keyDown_next {k : Nat} {s t : State} (h : keyDown k s = .next t) :
    k < 16 ∧ t = pressKey s (BitVec.ofNat 4 k) := by
  unfold keyDown at h
  split at h
  · rename_i hk
    exact ⟨hk, (Host.Outcome.next.inj h).symm⟩
  · cases h

theorem keyUp_next {k : Nat} {s t : State} (h : keyUp k s = .next t) :
    k < 16 ∧ t = releaseKey s (BitVec.ofNat 4 k) := by
  unfold keyUp at h
  split at h
  · rename_i hk
    exact ⟨hk, (Host.Outcome.next.inj h).symm⟩
  · cases h

/-- What an operation that faults has reached: the state it started from but for a load, which has run the reset. -/
@[simp] theorem atFault_load (image : List Byte) (s : State) : atFault (.load (some image)) s = resetCore s := rfl
@[simp] theorem atFault_cpuTick (s : State) : atFault .cpuTick s = s := rfl
@[simp] theorem atFault_cfg (op : HostOp) (s : State) : (atFault op s).cfg = s.cfg := by
  cases op with
  | load image =>
    cases image with
    | none => rfl
    | some bytes => rw [atFault_load, resetCore_eq]
  | _ => rfl

/-- A load that faults has sent the stop() of the tone it silenced. -/
theorem atFault_load_events (image : List Byte) (s : State) :
    (atFault (.load (some image)) s).events = s.events ++ (if 0 < s.st.toNat then [.stop] else []) := by
  rw [atFault_load, resetCore_eq]

/-- No other operation that faults has emitted anything. -/
theorem atFault_of_not_load {op : HostOp} (s : State) (h : ∀ image, op ≠ .load image) : atFault op s = s := by
  cases op with
  | load image => exact absurd rfl (h image)
  | _ => rfl

/-! ### The step -/

/-- A step is the host's next operation, on the state without it. -/
theorem step_eq (s : State) :
    step s = hostOp (s.schedule.headD .cpuTick) { s with schedule := s.schedule.tail } := by
  unfold step nextOp
  obtain ⟨cfg, v, i, pc, stack, sp, dt, st, ram, display, live, locked, cpu, waitReg, pendingKey, tone, fault, loaded,
    events, draws, schedule⟩ := s
  cases schedule <;> rfl

/-- With an empty schedule a step is a CPU tick. -/
theorem step_nil {s : State} (h : s.schedule = []) : step s = cpuTick s := by simp only [step, nextOp, h]

/-- With a schedule a step is its first operation. -/
theorem step_cons {s : State} {op : HostOp} {rest : List HostOp} (h : s.schedule = op :: rest) :
    step s = hostOp op { s with schedule := rest } := by
  simp only [step, nextOp, h]

/-- Every step that answers a next state is one of the host's operations. -/
theorem step_next {s t : State} (h : step s = .next t) :
    ∃ op u, u = { s with schedule := s.schedule.tail } ∧ hostOp op u = .next t :=
  ⟨_, _, rfl, step_eq s ▸ h⟩

/-- The reset state is what a load of an empty image leaves in it (R340, R51). -/
theorem load_empty_reset : loadOp (some []) State.reset = .next State.reset := rfl

end Sys2Proof.Machine
end

