-- ==== Sys2Proof/Tests/Slice0.lean ====
section
/-! SUPPORT. The model's own tests: the checks of WellFormed refuse ill-formed terms, one word of every instruction form
written out bit by bit from its encoding, the vectors of spec/95_test_vectors.md (each named in its comment), and a
witness for the hypotheses of every obligation that has some. -/

namespace Sys2Proof.Tests

open Sys2Proof.Machine

/-! ### Builders -/

/-- The state after a load of an empty image in a given mode, the start state of the vectors of 95_test_vectors.md. -/
def start (m : Mode) : State :=
  { State.reset with cfg := { bootConfig with flags := { mode := m, shiftOverride := none, incrementOverride := none } } }

/-- The vectors that name no mode, in the first mode. -/
def s0 : State := start .chip8

/-- Registers set one after another. -/
def regs (s : State) : List (Nibble × Byte) → State
  | [] => s
  | (r, b) :: l => regs (s.setReg r b) l

/-- RAM bytes set from an address on, where they fit. -/
def bytes (s : State) (a : Nat) (bs : List Byte) : State :=
  match writeBytes bs s a with
  | .ok t => t
  | .error _ => s

/-- One CPU tick with a word placed at PC: does its next state pass the check? -/
def tick (s : State) (w : Nat) (check : State → Bool) : Bool :=
  match step (s.withFetchWord 16 w) with
  | .next t => check t
  | .fault _ => false
  | .refused _ => false

/-- One host operation: does its next state pass the check? -/
def op (o : HostOp) (s : State) (check : State → Bool) : Bool :=
  match hostOp o s with
  | .next t => check t
  | .fault _ => false
  | .refused _ => false

/-- The fault a CPU tick with a word placed at PC raises. -/
def faultOf (s : State) (w : Nat) : Option Fault :=
  match step (s.withFetchWord 16 w) with
  | .next _ => none
  | .fault f => some f
  | .refused _ => none

/-- The refusal of a host operation. -/
def refusalOf (o : HostOp) (s : State) : Option Refusal :=
  match hostOp o s with
  | .next _ => none
  | .fault _ => none
  | .refused r => some r

/-- The byte of RAM at an address, where there is one. -/
def ram (t : State) (a : Nat) : Option Byte :=
  match memRead t a with
  | .ok b => some b
  | .error _ => none

/-! ### WellFormed -/

/-- R6, R7: the default configuration is within the bounds. -/
theorem test_default_config_accepted : bootConfig.wellFormed = true := by decide

/-- R6: `PROGRAM_START < MEM_SIZE`. -/
theorem test_config_without_program_space_refused :
    ({ bootConfig with memSize := 0x200 } : Config).wellFormed = false := by decide

/-- R6: `MEM_SIZE <= 0x10000`. -/
theorem test_config_too_much_ram_refused :
    ({ bootConfig with memSize := 0x10001 } : Config).wellFormed = false := by decide

/-- R6: `FONT_BASE + 80 <= PROGRAM_START`. -/
theorem test_config_font_over_program_refused :
    ({ bootConfig with fontBase := 0x1B1 } : Config).wellFormed = false := by decide

/-- R7: `STACK_DEPTH >= 1`. -/
theorem test_config_without_stack_refused :
    ({ bootConfig with stackDepth := 0 } : Config).wellFormed = false := by decide

/-- D31: a core with such a configuration refuses its operations. -/
theorem test_ill_formed_config_stops_the_core :
    refusalOf .cpuTick { s0 with cfg := { s0.cfg with memSize := 0x200 } } = some .badConfiguration ∧
    refusalOf .timerTick { s0 with cfg := { s0.cfg with memSize := 0x200 } } = some .badConfiguration ∧
    refusalOf (.load (some [])) { s0 with cfg := { s0.cfg with memSize := 0x200 } } = some .badConfiguration := by
  decide

/-- R115: one word per group that the map does not recognize (vectors D-1 to D-12). -/
theorem test_unrecognized_words_refused :
    [0x0000, 0x00E1, 0x00FF, 0x00C1, 0x0123, 0x5121, 0x812F, 0x8128, 0x9121, 0xE19F, 0xF130, 0xF175, 0xFFFF].all
      (fun w => !recognized (BitVec.ofNat 16 w) && (decodeTableWord 16 w).isNone) = true := by decide

/-- The map recognizes the same words the decoder does, at the edges of each group. -/
theorem test_recognized_words_accepted :
    [0x00E0, 0x00EE, 0x1000, 0x1FFF, 0x5FF0, 0x8FF7, 0x8FFE, 0x9FF0, 0xEF9E, 0xEFA1, 0xFF07, 0xFF65].all
      (fun w => recognized (BitVec.ofNat 16 w) && (decodeTableWord 16 w).isSome) = true := by decide

/-! ### One word of every form, bit by bit from the Encoding line of its rule -/

/-- 41_control_flow.md: 00EE, 1nnn, 2nnn, 3xkk, 4xkk, 5xy0, 9xy0, Bnnn. -/
theorem test_decode_control_flow :
    decode 0b0000000011101110 = .ok .ret ∧
    decode 0b0001001000110100 = .ok (.jp 0x234) ∧
    decode 0b0010001000010000 = .ok (.call 0x210) ∧
    decode 0b0011001101000010 = .ok (.seImm 3 0x42) ∧
    decode 0b0100001101000010 = .ok (.sneImm 3 0x42) ∧
    decode 0b0101000100100000 = .ok (.seReg 1 2) ∧
    decode 0b1001000100100000 = .ok (.sneReg 1 2) ∧
    decode 0b1011001100000001 = .ok (.jpV0 0x301) := by decide

/-- 42_alu.md: 6xkk, 7xkk, 8xy0 to 8xy7, 8xyE, Cxkk. -/
theorem test_decode_alu :
    decode 0b0110101000101111 = .ok (.ldImm 0xA 0x2F) ∧
    decode 0b0111000000000010 = .ok (.addImm 0 0x02) ∧
    decode 0b1000000100100000 = .ok (.ldReg 1 2) ∧
    decode 0b1000000100100001 = .ok (.orReg 1 2) ∧
    decode 0b1000000100100010 = .ok (.andReg 1 2) ∧
    decode 0b1000000100100011 = .ok (.xorReg 1 2) ∧
    decode 0b1000000100100100 = .ok (.addReg 1 2) ∧
    decode 0b1000000100100101 = .ok (.subReg 1 2) ∧
    decode 0b1000000100100110 = .ok (.shr 1 2) ∧
    decode 0b1000000100100111 = .ok (.subn 1 2) ∧
    decode 0b1000000100101110 = .ok (.shl 1 2) ∧
    decode 0b1100001100001111 = .ok (.rnd 3 0x0F) := by decide

/-- 43_index_memory.md: Annn, Fx1E, Fx29, Fx33, Fx55, Fx65. -/
theorem test_decode_index_memory :
    decode 0b1010001100000001 = .ok (.ldI 0x301) ∧
    decode 0b1111001000011110 = .ok (.addI 2) ∧
    decode 0b1111010000101001 = .ok (.ldF 4) ∧
    decode 0b1111101000110011 = .ok (.ldB 0xA) ∧
    decode 0b1111000101010101 = .ok (.stRegs 1) ∧
    decode 0b1111001001100101 = .ok (.ldRegs 2) := by decide

/-- 44_display.md: 00E0, Dxyn. -/
theorem test_decode_display :
    decode 0b0000000011100000 = .ok .cls ∧ decode 0b1101000100100101 = .ok (.drw 1 2 5) := by decide

/-- 45_timers_input.md: Ex9E, ExA1, Fx07, Fx0A, Fx15, Fx18. -/
theorem test_decode_timers_input :
    decode 0b1110000110011110 = .ok (.skp 1) ∧
    decode 0b1110000110100001 = .ok (.sknp 1) ∧
    decode 0b1111010100000111 = .ok (.ldVxDt 5) ∧
    decode 0b1111001100001010 = .ok (.ldVxK 3) ∧
    decode 0b1111010100010101 = .ok (.ldDtVx 5) ∧
    decode 0b1111001000011000 = .ok (.ldStVx 2) := by decide

/-- R73, R119: the decoder takes the high byte first and leaves the rest. -/
theorem test_decode_bytes :
    decodeBytes [0x12, 0x34, 0xAB] = .ok (.jp 0x234, [0xAB]) ∧ decodeBytes [0x12] = .error .tooShort := by decide

/-! ### Control flow (95_test_vectors.md L2-2) -/

/-- CF-2: PC = 0x206, SP = 0. -/
theorem test_ret : tick { s0 with sp := 1, stack := s0.stack.set 0 0x206 } 0x00EE
    (fun t => t.pc = 0x206 && t.sp == 0) = true := by decide

/-- CF-1. -/
theorem test_ret_underflow : faultOf s0 0x00EE = some .stackUnderflow := by decide

/-- CF-4: an odd target. -/
theorem test_jp : tick s0 0x1201 (fun t => t.pc = 0x201) = true := by decide

/-- CF-5: at 0x204. -/
theorem test_call : tick { s0 with pc := 0x204 } 0x2210
    (fun t => t.pc = 0x210 && t.sp == 1 && t.stack[0]? == some 0x206) = true := by decide

/-- CF-6. -/
theorem test_call_overflow : faultOf { s0 with sp := 16 } 0x2210 = some .stackOverflow := by decide

/-- CF-7, CF-8. -/
theorem test_se_immediate :
    tick (regs s0 [(3, 0x42)]) 0x3342 (fun t => t.pc = 0x204) = true ∧
    tick (regs s0 [(3, 0x41)]) 0x3342 (fun t => t.pc = 0x202) = true := by decide

/-- CF-18: the skip wraps PC at 0x10000. -/
theorem test_skip_wraps_pc :
    tick { s0 with cfg := { s0.cfg with memSize := 0x10000 }, pc := 0xFFFC } 0x3000 (fun t => t.pc = 0) = true := by
  decide

/-- CF-9, CF-10. -/
theorem test_sne_immediate :
    tick (regs s0 [(3, 0x42)]) 0x4342 (fun t => t.pc = 0x202) = true ∧
    tick (regs s0 [(3, 0x41)]) 0x4342 (fun t => t.pc = 0x204) = true := by decide

/-- CF-11, CF-12, CF-13. -/
theorem test_se_register :
    tick (regs s0 [(1, 7), (2, 7)]) 0x5120 (fun t => t.pc = 0x204) = true ∧
    tick (regs s0 [(1, 7), (2, 8)]) 0x5120 (fun t => t.pc = 0x202) = true ∧
    tick (regs s0 [(1, 9)]) 0x5110 (fun t => t.pc = 0x204) = true := by decide

/-- CF-14, CF-15. -/
theorem test_sne_register :
    tick (regs s0 [(1, 7), (2, 8)]) 0x9120 (fun t => t.pc = 0x204) = true ∧
    tick s0 0x9110 (fun t => t.pc = 0x202) = true := by decide

/-- CF-16, CF-17. -/
theorem test_jp_v0 :
    tick (regs s0 [(0, 0x10)]) 0xB300 (fun t => t.pc = 0x310) = true ∧
    tick (regs s0 [(0, 0xFF)]) 0xBFFF (fun t => t.pc = 0x10FE) = true := by decide

/-! ### ALU (L2-3) -/

/-- A-1. -/
theorem test_ld_immediate : tick s0 0x6A2F (fun t => t.reg 0xA = 0x2F) = true := by decide

/-- A-2, A-3: the wrap, and VF as the destination. -/
theorem test_add_immediate :
    tick (regs s0 [(0, 0xFF)]) 0x7002 (fun t => t.reg 0 = 0x01 && t.reg 0xF = 0) = true ∧
    tick (regs s0 [(0xF, 0xFF)]) 0x7F01 (fun t => t.reg 0xF = 0) = true := by decide

/-- R173 with `ADD_IMM_SETS_VF`: the carry; with x = F the sum. -/
theorem test_add_immediate_with_carry :
    tick { regs s0 [(0, 0xFF)] with cfg := { s0.cfg with addImmSetsVf := true } } 0x7002
      (fun t => t.reg 0 = 0x01 && t.reg 0xF = 1) = true ∧
    tick { regs s0 [(0xF, 0xFF)] with cfg := { s0.cfg with addImmSetsVf := true } } 0x7F03
      (fun t => t.reg 0xF = 2) = true := by decide

/-- A-5. -/
theorem test_ld_register : tick (regs s0 [(2, 0x99)]) 0x8120 (fun t => t.reg 1 = 0x99) = true := by decide

/-- A-7: VF stays. -/
theorem test_or : tick (regs s0 [(1, 0x0F), (2, 0xF0), (0xF, 1)]) 0x8121
    (fun t => t.reg 1 = 0xFF && t.reg 0xF = 1) = true := by decide

/-- A-8. -/
theorem test_and : tick (regs s0 [(1, 0x3C), (2, 0x0F)]) 0x8122 (fun t => t.reg 1 = 0x0C) = true := by decide

/-- A-9, A-10. -/
theorem test_xor :
    tick (regs s0 [(1, 0x3C), (2, 0x0F)]) 0x8123 (fun t => t.reg 1 = 0x33) = true ∧
    tick (regs s0 [(1, 0x3C)]) 0x8113 (fun t => t.reg 1 = 0) = true := by decide

/-- A-11, A-13. -/
theorem test_add_register :
    tick (regs s0 [(1, 0xF0), (2, 0x20)]) 0x8124 (fun t => t.reg 1 = 0x10 && t.reg 0xF = 1) = true ∧
    tick (regs s0 [(1, 0xFF), (2, 0x01)]) 0x8124 (fun t => t.reg 1 = 0x00 && t.reg 0xF = 1) = true := by decide

/-- A-15, A-16: VF as destination and as source. -/
theorem test_add_register_vf :
    tick (regs s0 [(0xF, 0x80), (1, 0x90)]) 0x8F14 (fun t => t.reg 0xF = 0x10) = true ∧
    tick (regs s0 [(1, 0x10), (0xF, 0x01)]) 0x81F4 (fun t => t.reg 1 = 0x11 && t.reg 0xF = 0) = true := by decide

/-- A-17, A-19. -/
theorem test_sub :
    tick (regs s0 [(1, 0x10), (2, 0x20)]) 0x8125 (fun t => t.reg 1 = 0xF0 && t.reg 0xF = 0) = true ∧
    tick (regs s0 [(1, 0x20), (2, 0x20)]) 0x8125 (fun t => t.reg 1 = 0x00 && t.reg 0xF = 1) = true := by decide

/-- A-21. -/
theorem test_sub_vf : tick (regs s0 [(0xF, 0x05)]) 0x8FF5 (fun t => t.reg 0xF = 0) = true := by decide

/-- A-22, A-23. -/
theorem test_subn :
    tick (regs s0 [(1, 0x10), (2, 0x20)]) 0x8127 (fun t => t.reg 1 = 0x10 && t.reg 0xF = 1) = true ∧
    tick (regs s0 [(1, 0x20), (2, 0x10)]) 0x8127 (fun t => t.reg 1 = 0xF0 && t.reg 0xF = 0) = true := by decide

/-- A-25, A-26: the source by mode. -/
theorem test_shr :
    tick (regs s0 [(1, 0x81), (2, 0x03)]) 0x8126 (fun t => t.reg 1 = 0x01 && t.reg 0xF = 1) = true ∧
    tick (regs (start .chip48) [(1, 0x81), (2, 0x03)]) 0x8126 (fun t => t.reg 1 = 0x40 && t.reg 0xF = 1) = true ∧
    tick (regs (start .superChip) [(1, 0x81), (2, 0x03)]) 0x8126 (fun t => t.reg 1 = 0x40 && t.reg 0xF = 1) = true := by
  decide

/-- A-29, A-30. -/
theorem test_shr_vf :
    tick (regs s0 [(1, 0x06)]) 0x8F16 (fun t => t.reg 0xF = 0x03) = true ∧
    tick (regs (start .superChip) [(0xF, 0x06)]) 0x8F06 (fun t => t.reg 0xF = 0x03) = true := by decide

/-- A-27, A-28. -/
theorem test_shl :
    tick (regs s0 [(1, 0x81), (2, 0x40)]) 0x812E (fun t => t.reg 1 = 0x80 && t.reg 0xF = 0) = true ∧
    tick (regs (start .chip48) [(1, 0x81), (2, 0x40)]) 0x812E (fun t => t.reg 1 = 0x02 && t.reg 0xF = 1) = true := by
  decide

/-- R10: an override beats the mode. -/
theorem test_shift_override :
    tick { regs s0 [(1, 0x81), (2, 0x40)] with
        cfg := { s0.cfg with flags := { s0.cfg.flags with shiftOverride := some false } } } 0x812E
      (fun t => t.reg 1 = 0x02 && t.reg 0xF = 1) = true := by decide

/-- A-33: whatever the draw, and it is counted. -/
theorem test_rnd_mask_zero : ∃ t, exec (.rnd 3 0x00) s0 = .next t ∧ t.reg 3 = 0 ∧ t.draws = 1 :=
  ⟨_, rfl, show Config.drawByte 0 &&& 0 = 0 from BitVec.and_zero, rfl⟩

/-! ### The index register and memory (L2-4) -/

/-- IM-2. -/
theorem test_ld_i : tick s0 0xAFFF (fun t => t.i = 0xFFF) = true := by decide

/-- IM-4, IM-6. -/
theorem test_add_i :
    tick (regs { s0 with i := 0xFFF } [(2, 0x01)]) 0xF21E (fun t => t.i = 0) = true ∧
    tick (regs { s0 with i := 0x010 } [(0xF, 0xFF)]) 0xFF1E (fun t => t.i = 0x10F && t.reg 0xF = 0xFF) = true := by
  decide

/-- IM-8, IM-10. -/
theorem test_ld_f :
    tick (regs s0 [(0, 0x0F)]) 0xF029 (fun t => t.i = 0x04B) = true ∧
    tick (regs s0 [(0, 0xFF)]) 0xF029 (fun t => t.i = 0x4FB) = true := by decide

/-- IM-10 with `FONT_INDEX_MASKED`. -/
theorem test_ld_f_masked :
    tick { regs s0 [(0, 0xFF)] with cfg := { s0.cfg with fontIndexMasked := true } } 0xF029
      (fun t => t.i = 0x04B) = true := by decide

/-- IM-11. -/
theorem test_ld_b : tick (regs { s0 with i := 0x300 } [(0, 0xFE)]) 0xF033
    (fun t => ram t 0x300 == some 2 && ram t 0x301 == some 5 && ram t 0x302 == some 4 && t.i = 0x300) = true := by
  decide

/-- IM-15. -/
theorem test_ld_b_out_of_range : faultOf (regs { s0 with i := 0xFFE } [(0, 0x7B)]) 0xF033 = some (.memoryRange 0x1000) := by
  decide

/-- L1-6: I by mode. -/
theorem test_store_registers :
    tick (regs { s0 with i := 0x300 } [(0, 1), (1, 2)]) 0xF155
      (fun t => ram t 0x300 == some 1 && ram t 0x301 == some 2 && ram t 0x302 == some 0 && t.i = 0x302) = true ∧
    tick (regs { start .superChip with i := 0x300 } [(0, 1), (1, 2)]) 0xF155 (fun t => t.i = 0x300) = true := by decide

/-- IM-17, IM-19: the last byte of RAM, and one past it. -/
theorem test_store_registers_at_the_end :
    tick (regs { s0 with i := 0xFF0 } [(0, 1), (0xF, 0x10)]) 0xFF55
      (fun t => ram t 0xFF0 == some 1 && ram t 0xFFF == some 0x10 && t.i = 0) = true ∧
    faultOf { s0 with i := 0xFFE } 0xF355 = some (.memoryRange 0x1000) := by decide

/-- L1-6. -/
theorem test_load_registers :
    tick (bytes { s0 with i := 0x300 } 0x300 [2, 5, 4]) 0xF265
      (fun t => t.reg 0 = 2 && t.reg 1 = 5 && t.reg 2 = 4 && t.reg 3 = 0 && t.i = 0x303) = true ∧
    tick (bytes { start .superChip with i := 0x300 } 0x300 [2, 5, 4]) 0xF265
      (fun t => t.reg 2 = 4 && t.i = 0x300) = true := by decide

/-- IM-18, IM-20: VF is loaded too; a read past RAM. -/
theorem test_load_registers_at_the_end :
    tick (bytes { s0 with i := 0x300 } 0x30F [0x77]) 0xFF65 (fun t => t.reg 0xF = 0x77 && t.i = 0x310) = true ∧
    faultOf { s0 with i := 0xFFE } 0xF365 = some (.memoryRange 0x1000) := by decide

/-! ### The display (L2-5, L1-3, L1-4) -/

/-- DS-1. -/
theorem test_cls : tick (regs { s0 with display := Vector.replicate 32 5 } [(0xF, 7)]) 0x00E0
    (fun t => t.display == Vector.replicate 32 0 && t.reg 0xF = 7) = true := by decide

/-- DS-3, DS-4, DS-9. -/
theorem test_drw :
    tick (bytes (regs { s0 with i := 0x300 } [(0, 5), (1, 5)]) 0x300 [0xFF]) 0xD011
      (fun t => t.display[5]? == some 0x07F8000000000000 && t.reg 0xF = 0) = true ∧
    tick (bytes (regs { s0 with i := 0x300 } [(0, 60)]) 0x300 [0xFF]) 0xD011
      (fun t => t.display[0]? == some 0x000000000000000F && t.reg 0xF = 0) = true ∧
    tick (bytes { s0 with i := 0x300, display := s0.display.set 0 0x8000000000000000 } 0x300 [0x80]) 0xD011
      (fun t => t.display[0]? == some 0 && t.reg 0xF = 1) = true := by decide

/-- DS-7, DS-8, DS-11: the vertical wrap, n = 0, a byte past RAM. -/
theorem test_drw_edges :
    tick (bytes (regs { s0 with i := 0x300 } [(1, 31)]) 0x300 [0x80, 0x01]) 0xD012
      (fun t => t.display[31]? == some 0x8000000000000000 && t.display[0]? == some 0x0100000000000000) = true ∧
    tick (regs { s0 with i := 0xFFFF } [(0xF, 1)]) 0xD010 (fun t => t.reg 0xF = 0) = true ∧
    faultOf { s0 with i := 0xFFF } 0xD012 = some (.memoryRange 0x1000) := by decide

/-- L1-3, L1-4: placement, wrap and clipping of one byte. -/
theorem test_display_set :
    (displaySet s0.display 5 5 0xFF).1[5]? = some 0x07F8000000000000 ∧
    (displaySet s0.display 65 0 0xFF).1[0]? = some 0x7F80000000000000 ∧
    (displaySet s0.display 60 0 0xF0).1[0]? = some 0x000000000000000F ∧
    (displaySet s0.display 60 0 0x0F).1 = s0.display := by decide

/-! ### Timers and keys (L2-6) -/

/-- TI-1. -/
theorem test_ld_vx_dt : tick { s0 with dt := 0x3C } 0xF507 (fun t => t.reg 5 = 0x3C) = true := by decide

/-- TI-2. -/
theorem test_ld_dt_vx : tick (regs s0 [(5, 0x3C)]) 0xF515 (fun t => t.dt = 0x3C) = true := by decide

/-- TI-3, TI-6. -/
theorem test_ld_st_start :
    tick (regs s0 [(2, 1)]) 0xF218 (fun t => t.st = 1 && t.tone == .on && t.events == [.start]) = true ∧
    tick (regs { s0 with st := 3, tone := .on } [(2, 5)]) 0xF218 (fun t => t.st = 5 && t.events == [.start]) = true := by
  decide

/-- TI-4, TI-5. -/
theorem test_ld_st_stop :
    tick { s0 with st := 3, tone := .on } 0xF218 (fun t => t.st = 0 && t.tone == .off && t.events == [.stop]) = true ∧
    tick s0 0xF218 (fun t => t.st = 0 && t.events == []) = true := by decide

/-- TI-9, TI-10: the mask is taken at the start of the tick. -/
theorem test_skp :
    tick (regs { s0 with live := 0x0020 } [(1, 5)]) 0xE19E (fun t => t.pc = 0x204 && t.locked = 0x0020) = true ∧
    tick (regs { s0 with locked := 0x0020 } [(1, 5)]) 0xE19E (fun t => t.pc = 0x202) = true := by decide

/-- TI-11, TI-12. -/
theorem test_sknp :
    tick (regs { s0 with live := 0x0020 } [(1, 5)]) 0xE1A1 (fun t => t.pc = 0x202) = true ∧
    tick (regs s0 [(1, 5)]) 0xE1A1 (fun t => t.pc = 0x204) = true := by decide

/-- TI-14. -/
theorem test_ld_vx_k : tick s0 0xF30A
    (fun t => t.cpu == .paused && t.waitReg = 3 && t.pendingKey == none && t.pc = 0x202 && t.reg 3 = 0) = true := by
  decide

/-- KW-1: the resuming tick stores the key and fetches nothing. -/
theorem test_resume : op .cpuTick { s0 with cpu := .paused, waitReg := 3, pendingKey := some 7, pc := 0x202 }
    (fun t => t.reg 3 = 7 && t.cpu == .running && t.pendingKey == none && t.pc = 0x202) = true := by decide

/-- KW-2, KW-3: a held key is no edge; the first edge wins. -/
theorem test_key_down :
    op (.keyDown 2) { s0 with cpu := .paused, live := 0x0004 } (fun t => t.pendingKey == none && t.live = 0x0004) = true ∧
    op (.keyDown 9) { s0 with cpu := .paused, live := 0x0010, pendingKey := some 4 }
      (fun t => t.pendingKey == some 4 && t.live = 0x0210) = true := by decide

/-- R324, U21. -/
theorem test_key_up :
    op (.keyUp 4) { s0 with live := 0x0210, locked := 0x0210 } (fun t => t.live = 0x0200 && t.locked = 0x0210) = true ∧
    refusalOf (.keyUp 16) s0 = some (.noSuchKey 16) := by decide

/-- TI-7, TI-8. -/
theorem test_timer_tick :
    op .timerTick s0 (fun t => t.dt = 0 && t.st = 0 && t.events == []) = true ∧
    op .timerTick { s0 with dt := 1, st := 2, tone := .on }
      (fun t => t.dt = 0 && t.st = 1 && t.events == [.start]) = true := by decide

/-! ### Fetch, faults, reset (L2-1, L2-7, L2-8) -/

/-- D-14, D-15, D-16. -/
theorem test_fetch_range :
    (match cpuTick { s0 with pc := 0x0FFF } with | .fault f => f == .memoryRange 0x1000 | .next _ => false | .refused _ => false) = true ∧
    (match cpuTick { s0 with pc := 0x1000 } with | .fault f => f == .memoryRange 0x1000 | .next _ => false | .refused _ => false) = true ∧
    (match cpuTick { s0 with pc := 0xFFFF, cfg := { s0.cfg with memSize := 0x10000 } } with
      | .fault f => f == .memoryRange 0x10000 | .next _ => false | .refused _ => false) = true := by decide

/-- R116: cleared RAM faults when fetched. -/
theorem test_cleared_ram_is_no_instruction :
    (match step s0 with | .fault f => f == .unrecognizedOpcode 0 | .next _ => false | .refused _ => false) = true := by
  decide

/-- F-1, F-2, RS-8. -/
theorem test_ticks_refused :
    refusalOf .cpuTick { s0 with fault := some .stackUnderflow } = some (.faulted .stackUnderflow) ∧
    refusalOf .timerTick { s0 with fault := some .stackUnderflow } = some (.faulted .stackUnderflow) ∧
    refusalOf .cpuTick { s0 with loaded := false } = some .notLoaded := by decide

/-- RS-4, RS-6, RS-7: the stop at a load, the bytes, the host's mask. -/
theorem test_load :
    op (.load (some [0xAB])) { s0 with st := 5, tone := .on, live := 8, locked := 8, ram := [(0, 0)] }
      (fun t => t.st = 0 && t.tone == .off && t.events == [.stop] && t.live = 8 && t.locked = 0 &&
        ram t 0 == some 0xF0 && ram t 0x200 == some 0xAB && ram t 0x201 == some 0 && t.pc = 0x200) = true := by decide

/-- R341, R346, D29: an image one byte too long for a small RAM is a fault after the reset has sent its stop(). -/
theorem test_load_too_long_stops_tone :
    (match operate (.load (some [1, 2, 3]))
        { s0 with st := 5, tone := .on, cfg := { s0.cfg with memSize := 0x202 } } with
      | .next t => t.fault == some (.memoryRange 0x202) && t.events == [.stop]
      | .fault _ => false
      | .refused _ => false) = true := by decide

/-- RS-3. -/
theorem test_load_nothing : refusalOf (.load none) s0 = some .noImage := by decide

/-- The font check after L2-4. -/
theorem test_font :
    [0x00, 0x01, 0x02, 0x03, 0x04, 0x4B, 0x4C, 0x4D, 0x4E, 0x4F, 0x50].map (ram s0) =
      [0xF0, 0x90, 0x90, 0x90, 0xF0, 0xF0, 0x80, 0xF0, 0x80, 0x80, 0x00].map some := by decide

/-- The canonical form: a byte written back to what an unlisted address reads as is not listed. -/
theorem test_canonical_ram :
    (bytes (bytes s0 0x300 [7]) 0x300 [0]).ram = [] ∧ (bytes (bytes s0 0x301 [7]) 0x300 [9]).ram = [(0x300, 9), (0x301, 7)] := by
  decide

/-! ### Witnesses: states and operands that meet the hypotheses of each obligation that has some, each clause at a
boundary of its range -/

/-- A running core with the bytes of `LD V0, 5` at PC. -/
def running : State := bytes s0 0x200 [0x60, 0x05]

/-- A waiting core. -/
def waiting : State := { s0 with cpu := .paused, waitReg := 3, pc := 0x202, dt := 5, st := 1, tone := .on }

theorem ticks_running : Ticks running := ⟨by decide, rfl, rfl⟩
theorem ready_running : Ready running := ⟨ticks_running, rfl⟩
theorem ticks_waiting : Ticks waiting := ⟨by decide, rfl, rfl⟩

theorem test_witness_EncodeOfDecode : ∃ i, decode 0xDFFF = .ok i := ⟨.drw 0xF 0xF 0xF, by decide⟩

/-- The last address a fetch may start at; the first that fails on its second byte; the first outside RAM. -/
theorem test_witness_FetchReadsBigEndian :
    (∃ hi lo, memRead { s0 with pc := 0xFFE } 0xFFE = .ok hi ∧ memRead { s0 with pc := 0xFFE } 0xFFF = .ok lo) ∧
    s0.cfg.memSize ≤ ({ s0 with pc := 0x1000 } : State).pc.toNat ∧
    ({ s0 with pc := 0xFFF } : State).pc.toNat + 1 = s0.cfg.memSize :=
  ⟨⟨_, _, rfl, rfl⟩, by decide, by decide⟩

theorem test_witness_StepRunsDecodedInstruction :
    Ready running ∧ memRead running running.pc.toNat = .ok 0x60 ∧ memRead running (running.pc.toNat + 1) = .ok 0x05 ∧
    (0x6005 : Word).toNat = (0x60 : Byte).toNat * 256 + (0x05 : Byte).toNat ∧ decode 0x6005 = .ok (.ldImm 0 5) ∧
    running.schedule = [] ∧ ({ running with schedule := [.cpuTick, .timerTick] } : State).schedule = .cpuTick :: [.timerTick] :=
  ⟨ready_running, by rfl, by rfl, by decide, by decide, rfl, rfl⟩

/-- The head of the schedule is every kind of operation. -/
theorem test_witness_StepPerformsScheduledOperation :
    s0.schedule = [] ∧
    ∀ o ∈ [HostOp.load (some []), .load none, .cpuTick, .timerTick, .keyDown 0xF, .keyUp 0x10],
      ({ s0 with schedule := [o, .cpuTick] } : State).schedule = o :: [.cpuTick] :=
  ⟨rfl, fun _ _ => rfl⟩

/-- Cleared RAM at the last address a fetch may start at; the first address that fails on its second byte; the first
outside RAM. -/
theorem test_witness_StepRaisesFetchFaults :
    (Ready { s0 with pc := 0xFFE } ∧ memRead { s0 with pc := 0xFFE } 0xFFE = .ok 0 ∧
      memRead { s0 with pc := 0xFFE } 0xFFF = .ok 0 ∧
      (0 : Word).toNat = (0 : Byte).toNat * 256 + (0 : Byte).toNat ∧ decode 0 = .error (.unrecognizedOpcode 0)) ∧
    (Ready { s0 with pc := 0xFFF } ∧ s0.cfg.memSize ≤ ({ s0 with pc := 0xFFF } : State).pc.toNat + 1) ∧
    (Ready { s0 with pc := 0x1000 } ∧ s0.cfg.memSize ≤ ({ s0 with pc := 0x1000 } : State).pc.toNat + 1) ∧
    s0.schedule = [] ∧ ({ s0 with schedule := [.cpuTick] } : State).schedule = .cpuTick :: [] :=
  ⟨⟨⟨⟨by decide, rfl, rfl⟩, rfl⟩, by rfl, by rfl, by decide, by decide⟩,
    ⟨⟨⟨by decide, rfl, rfl⟩, rfl⟩, by decide⟩, ⟨⟨⟨by decide, rfl, rfl⟩, rfl⟩, by decide⟩, rfl, rfl⟩

theorem test_witness_PausedTickResumesOnEdge :
    Ticks waiting ∧ waiting.schedule = [] ∧ waiting.cpu = .paused ∧ waiting.pendingKey = none ∧
    Ticks { waiting with pendingKey := some 0xF } ∧ ({ waiting with pendingKey := some 0xF } : State).cpu = .paused :=
  ⟨ticks_waiting, rfl, rfl, rfl, ⟨by decide, rfl, rfl⟩, rfl⟩

theorem test_witness_TicksRefusedOutsideARun :
    ({ s0.cfg with memSize := 0x200 } : Config).wellFormed = false ∧
    (s0.cfg.wellFormed = true ∧ ({ s0 with loaded := false } : State).loaded = false) ∧
    (s0.loaded = true ∧ ({ s0 with fault := some .stackOverflow } : State).fault = some .stackOverflow) := by decide

/-- A tick that raises a fault, and an image that fits with no byte to spare. -/
theorem test_witness_FaultHaltsUntilLoad :
    s0.cfg.wellFormed = true ∧ hostOp .cpuTick s0 = .fault (.unrecognizedOpcode 0) ∧
    (∀ image, HostOp.cpuTick ≠ .load image) ∧
    s0.cfg.programStart + (List.replicate 3584 (0 : Byte)).length ≤ s0.cfg.memSize :=
  ⟨by decide, by rfl, (fun _ h => by cases h), by rw [List.length_replicate]; decide⟩

/-- RS-1: the longest image that fits; the last address below the font's end, the first above it, the last byte. -/
theorem test_witness_LoadLeavesResetValues :
    s0.cfg.wellFormed = true ∧ s0.cfg.programStart + (List.replicate 3584 (7 : Byte)).length ≤ s0.cfg.memSize ∧
    (List.replicate 3584 (7 : Byte))[3583]? = some 7 ∧ s0.cfg.font[79]? = some 0x80 ∧
    (80 < s0.cfg.memSize ∧ ¬(s0.cfg.fontBase ≤ 80 ∧ 80 < s0.cfg.fontBase + 80) ∧
      ¬(s0.cfg.programStart ≤ 80 ∧ 80 < s0.cfg.programStart + (List.replicate 3584 (7 : Byte)).length)) :=
  ⟨by decide, by rw [List.length_replicate]; decide, by rw [List.getElem?_replicate]; rfl, by decide,
    by decide, by decide, fun h => absurd h.1 (by decide)⟩

/-- RS-2. -/
theorem test_witness_LoadOfTooLongImageFaults :
    s0.cfg.wellFormed = true ∧ s0.cfg.memSize - s0.cfg.programStart < (List.replicate 3585 (0 : Byte)).length :=
  ⟨by decide, by rw [List.length_replicate]; decide⟩

theorem test_witness_LoadWithoutImageChangesNothing : s0.cfg.wellFormed = true := by decide

/-- A state with the tone on, a stack in use and RAM written, and its step. -/
theorem test_witness_StepKeepsInvariant :
    Inv { running with st := 1, tone := .on, sp := 16 } ∧
    ∃ t, step { running with st := 1, tone := .on, sp := 16 } = .next t :=
  ⟨⟨by decide, by decide, by decide, by decide, by decide, fun h => absurd rfl h⟩, _, rfl⟩

/-- The timer tick that ends a tone. -/
theorem test_witness_ToneFollowsSoundTimer :
    (waiting.tone = .on ↔ 0 < waiting.st.toNat) ∧ ∃ t, step { waiting with schedule := [.timerTick] } = .next t :=
  ⟨by decide, _, rfl⟩

theorem test_witness_StopOncePerTransition :
    ∃ t, step { waiting with schedule := [.timerTick] } = .next t ∧ 0 < waiting.st.toNat ∧ t.st.toNat = 0 :=
  ⟨_, rfl, by decide, by decide⟩

theorem test_witness_OnlyKeyWaitPauses :
    (∃ t, step (s0.withFetchWord 16 0xFF0A) = .next t ∧ (s0.withFetchWord 16 0xFF0A).cpu = .running ∧ t.cpu = .paused) ∧
    (∃ t, step { waiting with pendingKey := some 0 } = .next t ∧ waiting.cpu = .paused ∧ t.cpu = .running) ∧
    (∃ t, step { waiting with schedule := [.load (some [])] } = .next t ∧ t.cpu = .running) :=
  ⟨⟨_, rfl, rfl, rfl⟩, ⟨_, rfl, rfl, rfl⟩, ⟨_, rfl, rfl⟩⟩

theorem test_witness_ConfigurationNeverChanges : ∃ t, step running = .next t := ⟨_, rfl⟩

theorem test_witness_InstructionsDoNotReadLiveKeys : ∃ t, exec (.skp 0) { s0 with live := 1 } = .next t := ⟨_, rfl⟩

/-- Two states that differ in a slot at SP; a CALL that fills the stack; an instruction that is neither CALL nor RET. -/
theorem test_witness_SlotsAboveSpAreUnobservable :
    (∃ u, exec (.call 0) { s0 with sp := 15 } = .next u ∧ 15 ≤ s0.cfg.stackDepth) ∧
    SameBelowSp { s0 with sp := 1 } { s0 with sp := 1, stack := s0.stack.set 1 0xFFFF } ∧
    (∃ u, exec .cls s0 = .next u) ∧ Instr.cls ≠ .ret ∧ (∀ nnn, Instr.cls ≠ .call nnn) :=
  ⟨⟨_, rfl, by decide⟩, ⟨fun k hk => by obtain rfl : k = 0 := Nat.lt_one_iff.mp hk; rfl, by decide, rfl⟩, ⟨_, rfl⟩, by decide,
    fun _ h => by cases h⟩

/-- One instruction for each cause, at the boundary. -/
theorem test_witness_InstructionFaultsHaveTheirCause :
    exec .ret s0 = .fault .stackUnderflow ∧ exec (.call 0) { s0 with sp := 16 } = .fault .stackOverflow ∧
    exec (.drw 0 0 1) { s0 with i := 0x1000 } = .fault (.memoryRange 0x1000) ∧
    exec (.ldB 0) { s0 with i := 0xFFE } = .fault (.memoryRange 0x1000) ∧
    exec (.stRegs 0) { s0 with i := 0x1000 } = .fault (.memoryRange 0x1000) ∧
    exec (.ldRegs 1) { s0 with i := 0xFFF } = .fault (.memoryRange 0x1000) :=
  ⟨rfl, rfl, rfl, rfl, rfl, rfl⟩

theorem test_witness_ReturnPopsIntoPc :
    (0 < ({ s0 with sp := 16 } : State).sp ∧ s0.stack[16 - 1]? = some 0) ∧ s0.sp = 0 := by decide

theorem test_witness_CallPushesAndJumps :
    (({ s0 with sp := 15 } : State).sp < s0.cfg.stackDepth ∧ s0.stack.length = s0.cfg.stackDepth) ∧
    ({ s0 with sp := 16 } : State).sp = s0.cfg.stackDepth := by decide

theorem test_witness_CallThenReturnComesBack :
    ({ s0 with sp := 15 } : State).sp < s0.cfg.stackDepth ∧ s0.stack.length = s0.cfg.stackDepth := by decide

theorem test_witness_SkipOnRegister : (1 : Nibble) ≠ 0 ∧ (0xF : Nibble) ≠ 0 := by decide

theorem test_witness_AddImmediateWraps :
    ({ s0.cfg with addImmSetsVf := true } : Config).addImmSetsVf = true ∧ (0xE : Nibble) ≠ 0xF := by decide

theorem test_witness_AddSetsCarry : (0 : Nibble) ≠ 0xF ∧ (0xE : Nibble) ≠ 0xF := by decide

theorem test_witness_SubtractSetsNotBorrow : (0 : Nibble) ≠ 0xF ∧ (0xE : Nibble) ≠ 0xF := by decide

/-- A source for each mode, and for an override against the mode. -/
theorem test_witness_ShiftsByOne :
    ShiftsVy (start .chip8).cfg ∧ ¬ ShiftsVy (start .chip48).cfg ∧ ¬ ShiftsVy (start .superChip).cfg ∧
    ShiftsVy { (start .superChip).cfg with flags := ⟨.superChip, some true, none⟩ } ∧ (0xE : Nibble) ≠ 0xF :=
  ⟨rfl, (fun h => by cases h), (fun h => by cases h), rfl, by decide⟩

theorem test_witness_AddToIndexWraps : s0.cfg.wellFormed = true := by decide

/-- The last address the digits fit at, and the first they do not. -/
theorem test_witness_StoreDecimalDigits :
    ({ s0 with i := 0xFFD } : State).i.toNat + 2 < s0.cfg.memSize ∧
    s0.cfg.memSize ≤ ({ s0 with i := 0xFFE } : State).i.toNat + 2 := by decide

/-- The modes, the last address 16 registers fit at, and the first they do not. -/
theorem test_witness_StoreRegistersAtIndex :
    s0.cfg.wellFormed = true ∧ ({ s0 with i := 0xFF0 } : State).i.toNat + (0xF : Nibble).toNat < s0.cfg.memSize ∧
    IncrementsI (start .chip48).cfg ∧ ¬ IncrementsI (start .superChip).cfg ∧
    s0.cfg.memSize ≤ ({ s0 with i := 0xFF1 } : State).i.toNat + (0xF : Nibble).toNat :=
  ⟨by decide, by decide, rfl, (fun h => by cases h), by decide⟩

theorem test_witness_LoadRegistersFromIndex :
    s0.cfg.wellFormed = true ∧ ({ s0 with i := 0xFFF } : State).i.toNat + (0 : Nibble).toNat < s0.cfg.memSize ∧
    IncrementsI (start .chip8).cfg ∧
    ¬ IncrementsI { (start .chip8).cfg with flags := ⟨.chip8, none, some false⟩ } ∧
    s0.cfg.memSize ≤ ({ s0 with i := 0x1000 } : State).i.toNat + (0 : Nibble).toNat :=
  ⟨by decide, by decide, rfl, (fun h => by cases h), by decide⟩

theorem test_witness_StoreThenLoadRestores :
    ¬ IncrementsI (start .superChip).cfg ∧
    ({ start .superChip with i := 0xFF0 } : State).i.toNat + (0xF : Nibble).toNat < (start .superChip).cfg.memSize :=
  ⟨(fun h => by cases h), by decide⟩

/-- The first pair of registers, and the last, at the end of RAM. -/
theorem test_witness_StoredWordIsFetched :
    (∃ t, exec (.stRegs 0xF) { s0 with i := 0xFF0 } = .next t) ∧
    ((1 : Nibble).toNat = (0 : Nibble).toNat + 1 ∧ (1 : Nibble).toNat ≤ (0xF : Nibble).toNat ∧
      (0xFF0 : Word).toNat = (0xFF0 : Word).toNat + (0 : Nibble).toNat) ∧
    ((0xF : Nibble).toNat = (0xE : Nibble).toNat + 1 ∧ (0xF : Nibble).toNat ≤ (0xF : Nibble).toNat ∧
      (0xFFE : Word).toNat = (0xFF0 : Word).toNat + (0xE : Nibble).toNat) :=
  ⟨⟨_, rfl⟩, by decide, by decide⟩

/-- The last column and row; a lit pixel that a drawn one meets. -/
theorem test_witness_SpriteBytePixels :
    63 < 64 ∧ 31 < 32 ∧ spritePixel 63 0x80 63 = true ∧
    displayGet (Vector.replicate 32 (1 : Row)) 63 (31 % 32) = true := by decide

/-- n = 0 outside RAM, a sprite that just fits, a drawn pixel, and a sprite one byte too long. -/
theorem test_witness_DrawSpriteRows :
    ((0 : Nibble) = 0 ∨ ({ s0 with i := 0xFFFF } : State).i.toNat + (0 : Nibble).toNat ≤ s0.cfg.memSize) ∧
    ({ s0 with i := 0xFF1 } : State).i.toNat + (0xF : Nibble).toNat ≤ s0.cfg.memSize ∧
    (0 < (1 : Nibble).toNat ∧ memRead s0 (s0.i.toNat + 0) = .ok 0xF0 ∧ spritePixel 0 0xF0 3 = true) ∧
    ((0xF : Nibble) ≠ 0 ∧ s0.cfg.memSize < ({ s0 with i := 0xFF2 } : State).i.toNat + (0xF : Nibble).toNat) :=
  ⟨.inl rfl, by decide, ⟨by decide, by rfl, by decide⟩, by decide, by decide⟩

/-- L1-2: the digit 0 on an empty display, which nothing overlaps. -/
theorem test_witness_DrawTwiceRestores :
    ((0 : Nibble) ≠ 0xF ∧ (0xE : Nibble) ≠ 0xF ∧ ∃ t, exec (.drw 0 0xE 5) s0 = .next t) ∧
    (∀ r, r < 32 → s0.display[r]? = some 0) ∧
    (∀ k b c, k < (5 : Nibble).toNat → memRead s0 (s0.i.toNat + k) = .ok b → c < 64 →
      spritePixel (s0.reg 0).toNat b c = true → displayGet s0.display c (((s0.reg 0xE).toNat + k) % 32) = false) := by
  have hz : ∀ r, r < 32 → s0.display[r]? = some 0 := fun r hr => by
    show (Vector.replicate 32 (0 : Row))[r]? = some 0
    simp [hr]
  exact ⟨⟨by decide, by decide, _, rfl⟩, hz, fun k b c _ _ _ _ => by
    simp [displayGet, hz _ (Nat.mod_lt _ (by decide))]⟩

theorem test_witness_PixelReadsOneBit : s0.display[31]? = some 0 ∧ (63 ≤ 63 ∧ (63 < 64 ∨ 31 < 0)) ∧ (63 < 0 ∨ 31 < 32) := by
  decide

/-- The three cases of the sound timer's setter. -/
theorem test_witness_SoundTimerSet :
    0 < ((regs s0 [(2, 1)]).reg 2).toNat ∧ ((s0.reg 2).toNat = 0 ∧ 0 < waiting.st.toNat) ∧ s0.st.toNat = 0 := by decide

/-- The three cases of a timer tick. -/
theorem test_witness_TimerTickCountsDown :
    Ticks waiting ∧ waiting.st.toNat = 1 ∧ Ticks s0 ∧ s0.st.toNat = 0 ∧ Ticks { s0 with st := 2 } ∧ 1 < (2 : Byte).toNat :=
  ⟨ticks_waiting, by decide, ⟨by decide, rfl, rfl⟩, by decide, ⟨by decide, rfl, rfl⟩, by decide⟩

/-- Key 15 is tested; a register of 16 draws. -/
theorem test_witness_SkipOnKey :
    (((regs s0 [(1, 15)]).reg 1).toNat ≤ 15 ∧
      true = decide (({ s0 with locked := 0x8000 } : State).locked.toNat / 2 ^ ((regs s0 [(1, 15)]).reg 1).toNat % 2 = 1)) ∧
    15 < ((regs s0 [(1, 16)]).reg 1).toNat := by decide

/-- An edge while waiting, and each of the three reasons for none. -/
theorem test_witness_KeyDownLatchesEdge :
    (15 < 16 ∧ waiting.live.getLsbD 15 = false ∧ waiting.cpu = .paused ∧ waiting.pendingKey = none) ∧
    ({ waiting with live := 0x8000 } : State).live.getLsbD 15 = true ∧ s0.cpu = .running ∧
    ({ waiting with pendingKey := some 0 } : State).pendingKey ≠ none := by decide

theorem test_witness_KeyUpClearsBit : 0 < 16 ∧ 15 < 16 := by decide

theorem test_witness_KeysAboveFifteenRefused : 16 ≤ 16 := by decide

theorem test_witness_TimersRunDuringKeyWait :
    Ticks waiting ∧ waiting.cpu = .paused ∧ waiting.pendingKey = none ∧ 0 < waiting.cfg.cpuTicksPerTimerTick :=
  ⟨ticks_waiting, rfl, rfl, by decide⟩

end Sys2Proof.Tests
end

/-! PROOFS (`10_state.md`, R37 and R39). The stack: its size, the range of SP, and what of it an instruction can see. The
one fact behind all of it is a commutation: an instruction other than CALL and RET does the same on any other stack and
leaves that stack. CALL and RET go through `push` and `pop`, which look only at slots below SP. -/

namespace Sys2Proof.Machine

/-- The state with another stack: any slots, any SP. -/
def State.withStack (s : State) (k : List Word) (n : Nat) : State := { s with stack := k, sp := n }

/-! ### What another stack leaves alone -/

@[simp] theorem withStack_cfg (s : State) (k : List Word) (n : Nat) : (s.withStack k n).cfg = s.cfg := rfl
@[simp] theorem withStack_i (s : State) (k : List Word) (n : Nat) : (s.withStack k n).i = s.i := rfl
@[simp] theorem withStack_pc (s : State) (k : List Word) (n : Nat) : (s.withStack k n).pc = s.pc := rfl
@[simp] theorem withStack_stack (s : State) (k : List Word) (n : Nat) : (s.withStack k n).stack = k := rfl
@[simp] theorem withStack_sp (s : State) (k : List Word) (n : Nat) : (s.withStack k n).sp = n := rfl
@[simp] theorem withStack_reg (s : State) (k : List Word) (n : Nat) (r : Nibble) :
    (s.withStack k n).reg r = s.reg r := rfl
@[simp] theorem withStack_memRead (s : State) (k : List Word) (n a : Nat) :
    memRead (s.withStack k n) a = memRead s a := rfl
@[simp] theorem withStack_regFileRead (s : State) (k : List Word) (n j : Nat) :
    regFileRead (s.withStack k n) j = regFileRead s j := rfl
@[simp] theorem withStack_indexAfterTransfer (s : State) (k : List Word) (n : Nat) (x : Nibble) :
    indexAfterTransfer (s.withStack k n) x = indexAfterTransfer s x := rfl

/-! ### The shared operations on another stack -/

theorem skipIf_withStack (c : Bool) (s : State) (k : List Word) (n : Nat) :
    skipIf c (s.withStack k n) = (skipIf c s).withStack k n := by
  cases c <;> rfl

theorem keyTest_withStack (s : State) (x : Nibble) (k : List Word) (n : Nat) :
    keyTest (s.withStack k n) x = ((keyTest s x).1, (keyTest s x).2.withStack k n) := by
  by_cases h : (s.reg x).toNat ≤ 15
  · rw [keyTest_key h]
    exact keyTest_key h
  · rw [keyTest_draw (Nat.not_le.mp h)]
    exact keyTest_draw (Nat.not_le.mp h)

theorem soundSet_withStack (s : State) (b : Byte) (k : List Word) (n : Nat) :
    soundSet (s.withStack k n) b = (soundSet s b).withStack k n := by
  rw [soundSet_eq, soundSet_eq]
  rfl

theorem readBytes_withStack (s : State) (k : List Word) (n c a : Nat) :
    readBytes c (s.withStack k n) a = readBytes c s a := by
  induction c generalizing a with
  | zero => rfl
  | succ c ih => simp only [readBytes, withStack_memRead, ih]

theorem readRegs_withStack (s : State) (k : List Word) (n c j : Nat) :
    readRegs c (s.withStack k n) j = readRegs c s j := by
  induction c generalizing j with
  | zero => rfl
  | succ c ih => simp only [readRegs, withStack_regFileRead, ih]

theorem memWrite_withStack (s : State) (k : List Word) (n a : Nat) (b : Byte) :
    memWrite (s.withStack k n) a b = (memWrite s a b).map (·.withStack k n) := by
  by_cases h : a < s.cfg.memSize
  · rw [memWrite_ok b h]
    exact memWrite_ok b h
  · rw [memWrite_error b (Nat.not_lt.mp h)]
    exact memWrite_error b (Nat.not_lt.mp h)

theorem writeBytes_withStack (bs : List Byte) (s : State) (k : List Word) (n a : Nat) :
    writeBytes bs (s.withStack k n) a = (writeBytes bs s a).map (·.withStack k n) := by
  induction bs generalizing s a with
  | nil => rfl
  | cons b bs ih =>
    simp only [writeBytes, memWrite_withStack]
    cases memWrite s a b with
    | error f => rfl
    | ok t => exact ih t (a + 1)

theorem regFileWrite_withStack (s : State) (k : List Word) (n j : Nat) (b : Byte) :
    regFileWrite (s.withStack k n) j b = (regFileWrite s j b).map (·.withStack k n) := by
  unfold regFileWrite
  split <;> rfl

theorem writeRegs_withStack (bs : List Byte) (s : State) (k : List Word) (n j : Nat) :
    writeRegs bs (s.withStack k n) j = (writeRegs bs s j).map (·.withStack k n) := by
  induction bs generalizing s j with
  | nil => rfl
  | cons b bs ih =>
    simp only [writeRegs, regFileWrite_withStack]
    cases regFileWrite s j b with
    | error f => rfl
    | ok t => exact ih t (j + 1)

/-! ### The instructions that do not use the stack -/

theorem execLdB_withStack (x : Nibble) (s : State) (k : List Word) (n : Nat) :
    execLdB x (s.withStack k n) = onNext (·.withStack k n) (execLdB x s) := by
  simp only [execLdB, withStack_reg, withStack_i, writeBytes_withStack]
  cases writeBytes (decimalDigits (s.reg x)) s s.i.toNat <;> rfl

theorem execStRegs_withStack (x : Nibble) (s : State) (k : List Word) (n : Nat) :
    execStRegs x (s.withStack k n) = onNext (·.withStack k n) (execStRegs x s) := by
  simp only [execStRegs, withStack_i, withStack_indexAfterTransfer, readRegs_withStack, writeBytes_withStack]
  cases readRegs (x.toNat + 1) s 0 with
  | error f => rfl
  | ok bs =>
    dsimp only
    cases writeBytes bs s s.i.toNat <;> rfl

theorem execLdRegs_withStack (x : Nibble) (s : State) (k : List Word) (n : Nat) :
    execLdRegs x (s.withStack k n) = onNext (·.withStack k n) (execLdRegs x s) := by
  simp only [execLdRegs, withStack_i, withStack_indexAfterTransfer, readBytes_withStack, writeRegs_withStack]
  cases readBytes (x.toNat + 1) s s.i.toNat with
  | error f => rfl
  | ok bs =>
    dsimp only
    cases writeRegs bs s 0 <;> rfl

theorem execDrw_withStack (x y h : Nibble) (s : State) (k : List Word) (n : Nat) :
    execDrw x y h (s.withStack k n) = onNext (·.withStack k n) (execDrw x y h s) := by
  simp only [execDrw, withStack_i, readBytes_withStack]
  cases readBytes h.toNat s s.i.toNat <;> rfl

/-- Only CALL and RET use the stack: on any other stack every other instruction does the same, and leaves that stack. -/
theorem exec_withStack {i : Instr} (hret : i ≠ .ret) (hcall : ∀ nnn, i ≠ .call nnn) (s : State) (k : List Word)
    (n : Nat) : exec i (s.withStack k n) = onNext (·.withStack k n) (exec i s) := by
  cases i with
  | ret => exact absurd rfl hret
  | call nnn => exact absurd rfl (hcall nnn)
  | seImm | sneImm | seReg | sneReg => exact congrArg Host.Outcome.next (skipIf_withStack ..)
  | skp x | sknp x =>
    simp only [exec, execSkp, execSknp, keyTest_withStack, skipIf_withStack]
    rfl
  | addImm x kk =>
    simp only [exec, execAddImm, withStack_cfg]
    cases s.cfg.addImmSetsVf <;> rfl
  | ldStVx x => exact congrArg Host.Outcome.next (soundSet_withStack ..)
  | drw x y h => exact execDrw_withStack x y h s k n
  | ldB x => exact execLdB_withStack x s k n
  | stRegs x => exact execStRegs_withStack x s k n
  | ldRegs x => exact execLdRegs_withStack x s k n
  | _ => rfl

/-- So it leaves the stack it finds: that stack in place of itself changes nothing. -/
theorem exec_stack_unchanged {i : Instr} (hret : i ≠ .ret) (hcall : ∀ nnn, i ≠ .call nnn) {s u : State}
    (h : exec i s = .next u) : u.stack = s.stack ∧ u.sp = s.sp := by
  have hu : exec i s = onNext (·.withStack s.stack s.sp) (exec i s) := exec_withStack hret hcall s s.stack s.sp
  rw [h] at hu
  have hu : u = u.withStack s.stack s.sp := Host.Outcome.next.inj hu
  exact ⟨by rw [hu, withStack_stack], by rw [hu, withStack_sp]⟩

/-! ### CALL and RET -/

/-- CALL on a stack that is not full (R143). -/
theorem exec_call_next {s : State} (nnn : Addr12) (h : s.sp < s.cfg.stackDepth) :
    exec (.call nnn) s = .next ((s.withStack (s.stack.set s.sp s.pc) (s.sp + 1)).setPc nnn.toNat) := by
  simp only [exec, execCall, push_ok s.pc h]
  rfl

/-- CALL on a full stack (R40, R143). -/
theorem exec_call_overflow {s : State} (nnn : Addr12) (h : s.cfg.stackDepth ≤ s.sp) :
    exec (.call nnn) s = .fault .stackOverflow := by
  simp only [exec, execCall, push_error s.pc h]
  rfl

/-- RET on a stack that is not empty (R141). -/
theorem exec_ret_next {s : State} (h : 0 < s.sp) :
    exec .ret s = .next ((s.withStack s.stack (s.sp - 1)).setPc ((s.stack[s.sp - 1]?).getD 0).toNat) := by
  simp only [exec, execRet, pop_ok h]
  rfl

/-- RET on an empty stack (R41, R141). -/
theorem exec_ret_underflow {s : State} (h : s.sp = 0) : exec .ret s = .fault .stackUnderflow := by
  simp only [exec, execRet, pop_error h]
  rfl

/-- An instruction is RET, a CALL, or one that does not use the stack. -/
theorem stack_use_cases (i : Instr) :
    i = .ret ∨ (∃ nnn, i = .call nnn) ∨ (i ≠ .ret ∧ ∀ nnn, i ≠ .call nnn) := by
  by_cases hret : i = .ret
  · exact .inl hret
  · exact .inr ((em (∃ nnn, i = .call nnn)).imp_right fun hcall => ⟨hret, not_exists.mp hcall⟩)

/-- Everything an instruction that answers a next state can have done to the stack. -/
theorem exec_stack_cases {i : Instr} {s u : State} (h : exec i s = .next u) :
    (i = .ret ∧ u.stack = s.stack ∧ 0 < s.sp ∧ u.sp = s.sp - 1) ∨
    (∃ nnn, i = .call nnn ∧ u.stack = s.stack.set s.sp s.pc ∧ s.sp < s.cfg.stackDepth ∧ u.sp = s.sp + 1) ∨
    (i ≠ .ret ∧ (∀ nnn, i ≠ .call nnn) ∧ u.stack = s.stack ∧ u.sp = s.sp) := by
  obtain rfl | ⟨nnn, rfl⟩ | ⟨hret, hcall⟩ := stack_use_cases i
  · rcases Nat.eq_zero_or_pos s.sp with hsp | hsp
    · cases (exec_ret_underflow hsp).symm.trans h
    · cases (exec_ret_next hsp).symm.trans h
      exact .inl ⟨rfl, rfl, hsp, rfl⟩
  · rcases Nat.lt_or_ge s.sp s.cfg.stackDepth with hsp | hsp
    · cases (exec_call_next nnn hsp).symm.trans h
      exact .inr (.inl ⟨nnn, rfl, rfl, hsp, rfl⟩)
    · cases (exec_call_overflow nnn hsp).symm.trans h
  · exact .inr (.inr ⟨hret, hcall, exec_stack_unchanged hret hcall h⟩)

/-- R37: the number of slots is kept. -/
theorem exec_stack_length {i : Instr} {s u : State} (h : exec i s = .next u) : u.stack.length = s.stack.length := by
  obtain ⟨-, hk, -⟩ | ⟨nnn, -, hk, -⟩ | ⟨-, -, hk, -⟩ := exec_stack_cases h <;> simp [hk]

/-- R37: SP stays at or below `STACK_DEPTH`. -/
theorem exec_sp_le {i : Instr} {s u : State} (h : exec i s = .next u) (hs : s.sp ≤ s.cfg.stackDepth) :
    u.sp ≤ s.cfg.stackDepth := by
  obtain ⟨-, -, hsp, hu⟩ | ⟨nnn, -, -, hsp, hu⟩ | ⟨-, -, -, hu⟩ := exec_stack_cases h <;> omega

/-! ### The slots at and above SP -/

/-- Lists of one length that agree below an index. -/
structure AgreeBelow (n : Nat) (k l : List Word) : Prop where
  slots : ∀ j, j < n → l[j]? = k[j]?
  length : l.length = k.length

theorem AgreeBelow.mono {m n : Nat} {k l : List Word} (h : AgreeBelow n k l) (hm : m ≤ n) : AgreeBelow m k l :=
  ⟨fun j hj => h.slots j (by omega), h.length⟩

/-- The same value written at the index makes them agree up to it. -/
theorem AgreeBelow.set {n : Nat} {k l : List Word} (h : AgreeBelow n k l) (w : Word) :
    AgreeBelow (n + 1) (k.set n w) (l.set n w) := by
  refine ⟨fun j hj => ?_, by simp [h.length]⟩
  rcases Nat.lt_succ_iff_lt_or_eq.mp hj with hj | rfl
  · simpa [List.getElem?_set, hj.ne'] using h.slots j hj
  · simp [List.getElem?_set, h.length]

/-- Two states differ at most in slots at and above SP when the second is the first on a stack that agrees below SP. -/
theorem sameBelowSp_iff {s t : State} :
    SameBelowSp s t ↔ AgreeBelow s.sp s.stack t.stack ∧ t = s.withStack t.stack s.sp := by
  constructor
  · rintro ⟨hk, hl, hr⟩
    have hsp : t.sp = s.sp := by rw [← hr]
    refine ⟨⟨hk, hl⟩, ?_⟩
    calc t = State.withStack { t with stack := s.stack } t.stack t.sp := rfl
      _ = s.withStack t.stack s.sp := by rw [hr, hsp]
  · rintro ⟨⟨hk, hl⟩, ht⟩
    refine ⟨hk, hl, ?_⟩
    rw [ht]
    rfl

/-- One state on two stacks that agree below SP. -/
theorem sameBelowSp_withStack (u : State) {n : Nat} {k l : List Word} (h : AgreeBelow n k l) :
    SameBelowSp (u.withStack k n) (u.withStack l n) :=
  sameBelowSp_iff.mpr ⟨h, rfl⟩

/-- CALL writes the slot at SP before it counts it in. -/
theorem exec_call_sameBelowSp (nnn : Addr12) {s : State} {l : List Word} (h : AgreeBelow s.sp s.stack l) :
    OutcomesRelated SameBelowSp (exec (.call nnn) s) (exec (.call nnn) (s.withStack l s.sp)) := by
  rcases Nat.lt_or_ge s.sp s.cfg.stackDepth with hsp | hsp
  · rw [exec_call_next nnn hsp, exec_call_next (s := s.withStack l s.sp) nnn hsp]
    exact sameBelowSp_withStack (s.setPc nnn.toNat) (h.set s.pc)
  · rw [exec_call_overflow nnn hsp, exec_call_overflow (s := s.withStack l s.sp) nnn hsp]
    rfl

/-- RET reads the slot below SP. -/
theorem exec_ret_sameBelowSp {s : State} {l : List Word} (h : AgreeBelow s.sp s.stack l) :
    OutcomesRelated SameBelowSp (exec .ret s) (exec .ret (s.withStack l s.sp)) := by
  rcases Nat.eq_zero_or_pos s.sp with hsp | hsp
  · rw [exec_ret_underflow hsp, exec_ret_underflow (s := s.withStack l s.sp) hsp]
    rfl
  · have hslot : l[s.sp - 1]? = s.stack[s.sp - 1]? := h.slots (s.sp - 1) (by omega)
    rw [exec_ret_next hsp, exec_ret_next (s := s.withStack l s.sp) hsp, withStack_stack, withStack_sp, hslot]
    exact sameBelowSp_withStack (s.setPc _) (h.mono (Nat.sub_le s.sp 1))

/-- Every other instruction leaves the two stacks as they are. -/
theorem exec_sameBelowSp_of_no_stack {i : Instr} (hret : i ≠ .ret) (hcall : ∀ nnn, i ≠ .call nnn) {s : State}
    {l : List Word} (h : AgreeBelow s.sp s.stack l) :
    OutcomesRelated SameBelowSp (exec i s) (exec i (s.withStack l s.sp)) := by
  rw [exec_withStack hret hcall]
  cases he : exec i s with
  | next u =>
    obtain ⟨hk, hn⟩ := exec_stack_unchanged hret hcall he
    rw [← hk, ← hn] at h
    exact sameBelowSp_iff.mpr ⟨h, by rw [hn]; rfl⟩
  | fault f => rfl
  | refused r => rfl

/-- R39: from two states that differ at most in slots at and above SP every instruction has outcomes that do. -/
theorem exec_sameBelowSp (i : Instr) {s t : State} (h : SameBelowSp s t) :
    OutcomesRelated SameBelowSp (exec i s) (exec i t) := by
  obtain ⟨hagree, ht⟩ := sameBelowSp_iff.mp h
  rw [ht]
  obtain rfl | ⟨nnn, rfl⟩ | ⟨hret, hcall⟩ := stack_use_cases i
  · exact exec_ret_sameBelowSp hagree
  · exact exec_call_sameBelowSp nnn hagree
  · exact exec_sameBelowSp_of_no_stack hret hcall hagree

/-- Settles O24: `exec_withStack` for the instructions that do not use the stack, `push` and `pop` for CALL and RET. -/
theorem slotsAboveSpAreUnobservable : Obligations.SlotsAboveSpAreUnobservable := by
  intro i s
  exact ⟨fun u hu => ⟨exec_stack_length hu, exec_sp_le hu, fun hret hcall => exec_stack_unchanged hret hcall hu⟩,
    fun hret hcall k n => exec_withStack hret hcall s k n, fun t ht => exec_sameBelowSp i ht⟩

end Sys2Proof.Machine

/-! PROOFS (`41_control_flow.md`, R142 to R147 and R150). JP, CALL and the register skips. An encoding is its packing, as
`packNNN_field`, `packXKK_fields` and `packXYN_fields` write it; a meaning is an assignment of PC, for CALL after a push.
The four skips share one operation, `skipIf`, so what a skip on equality and a skip on inequality do is said once, for any
two bytes. -/

namespace Sys2Proof

/-! ### The low nibble of an opcode -/

/-- The low nibble is the last field to be put into a word. -/
theorem packXYN_or_lowNibble (h x y n : Nibble) : packXYN h x y 0 ||| n.zeroExtend 16 = packXYN h x y n := by
  rw [packXYN_eq_or h x y 0, packXYN_eq_or h x y n, show (0 : Nibble).zeroExtend 16 = 0#16 from rfl, BitVec.or_zero]

/-- In groups 5 and 9 a low nibble other than 0 is unrecognized (R108). -/
theorem decode_lowNibble_unrecognized {h x y n : Nibble} (hh : h = 0x5 ∨ h = 0x9) (hn : n ≠ 0) :
    decode (packXYN h x y n) = .error (.unrecognizedOpcode (packXYN h x y n)) := by
  refine decode_error.mpr ⟨?_, rfl⟩
  rcases hh with rfl | rfl <;> simpa [decodeWord, fieldH_packXYN, fieldN_packXYN, -fieldH_toNat] using hn

end Sys2Proof

namespace Sys2Proof.Machine

/-! ### Jumps -/

/-- A 12-bit target fits PC: the assignment does not reduce it (R35). -/
theorem setPc_addr12_toNat (s : State) (nnn : Addr12) : (s.setPc nnn.toNat).pc.toNat = nnn.toNat := by
  have := nnn.isLt
  simp only [setPc_pc, BitVec.toNat_ofNat]
  omega

/-- Another word in slot `k` and another SP change slot `k` and SP. -/
theorem frame_withStack_set (s : State) (k n : Nat) (w : Word) :
    Frame (fun p => p = .sp ∨ p = .slot k) s (s.withStack (s.stack.set k w) n) := by
  intro p hp
  cases p with
  | sp => exact absurd (.inl rfl) hp
  | slot j => exact List.getElem?_set_ne fun hkj => hp (.inr (congrArg Part.slot hkj.symm))
  | _ => rfl

/-! ### Skips -/

/-- A skip, taken or not, changes PC at most (R150). -/
theorem frame_skipIf (c : Bool) (s : State) : Frame (· = .pc) s (skipIf c s) := by
  rw [skipIf_eq]
  exact frame_setPc s _

/-- A skip on the equality of two bytes (R144, R146). -/
theorem skipIf_eq_pc (s : State) (a b : Byte) :
    (skipIf (decide (a = b)) s).pc.toNat = (s.pc.toNat + if a.toNat = b.toNat then 2 else 0) % 65536 := by
  simp only [skipIf_pc, decide_eq_true_eq, BitVec.toNat_inj]

/-- A skip on the inequality of two bytes (R145, R147). -/
theorem skipIf_ne_pc (s : State) (a b : Byte) :
    (skipIf (decide (a ≠ b)) s).pc.toNat = (s.pc.toNat + if a.toNat = b.toNat then 0 else 2) % 65536 := by
  simp only [skipIf_pc, decide_eq_true_eq, BitVec.toNat_inj, ne_eq, ite_not]

/-! ### The statements -/

/-- Settles O27: JP is one assignment of PC. -/
theorem jumpSetsPc : Obligations.JumpSetsPc := by
  intro s nnn
  exact ⟨packNNN_field 1 nnn, _, rfl, setPc_addr12_toNat s nnn, frame_setPc s _⟩

/-- Settles O28: a push of PC into the slot at SP, then a jump. -/
theorem callPushesAndJumps : Obligations.CallPushesAndJumps := by
  intro s nnn
  refine ⟨packNNN_field 2 nnn, fun hsp hslots => ?_, fun hfull => exec_call_overflow nnn hfull.ge⟩
  have hpushed : (s.stack.set s.sp s.pc)[s.sp]? = some s.pc := List.getElem?_set_self (hslots ▸ hsp)
  have hpush := frame_withStack_set s s.sp (s.sp + 1) s.pc
  exact ⟨_, exec_call_next nnn hsp, hpushed, rfl, setPc_addr12_toNat _ nnn,
    (hpush.mono fun _ h => .inr h).trans ((frame_setPc _ _).mono fun _ h => .inl h)⟩

/-- Settles O30: each meaning is `skipIf` on the register and the immediate. -/
theorem skipOnImmediate : Obligations.SkipOnImmediate := by
  intro s x kk
  exact ⟨packXKK_fields 3 x kk, packXKK_fields 4 x kk,
    ⟨_, rfl, skipIf_eq_pc s (s.reg x) kk, frame_skipIf _ s⟩,
    ⟨_, rfl, skipIf_ne_pc s (s.reg x) kk, frame_skipIf _ s⟩⟩

/-- Settles O31: each meaning is `skipIf` on the two registers, and a low nibble put into either opcode is rejected by
`decode_lowNibble_unrecognized`. -/
theorem skipOnRegister : Obligations.SkipOnRegister := by
  intro s x y
  refine ⟨packXYN_fields 5 x y 0, packXYN_fields 9 x y 0, fun n hn => ?_,
    ⟨_, rfl, skipIf_eq_pc s (s.reg x) (s.reg y), frame_skipIf _ s⟩,
    ⟨_, rfl, skipIf_ne_pc s (s.reg x) (s.reg y), frame_skipIf _ s⟩⟩
  simp only [encode, packXYN_or_lowNibble]
  exact ⟨decode_lowNibble_unrecognized (.inl rfl) hn, decode_lowNibble_unrecognized (.inr rfl) hn⟩

end Sys2Proof.Machine

/-! PROOFS (`42_alu.md`, R172 to R174, R178, R179 and R181). Loads, sums and differences. A narrowed result and a
flag are read as numbers first; every instruction with a flag is one `setFlagThenReg`, so a sum with its carry and a
difference with its NOT borrow are each said once, for any two bytes. -/

namespace Sys2Proof.Machine

/-! ### Flags and narrowed results as numbers -/

@[simp] theorem flagByte_toNat (c : Bool) : (flagByte c).toNat = if c = true then 1 else 0 := by
  cases c <;> rfl

@[simp] theorem sumByte_toNat (a b : Byte) : (sumByte a b).toNat = (a.toNat + b.toNat) % 256 :=
  BitVec.toNat_ofNat _ _

/-- The representative in [0, 255], with the subtraction written so that it does not truncate. -/
@[simp] theorem diffByte_toNat (a b : Byte) : (diffByte a b).toNat = (256 + a.toNat - b.toNat) % 256 := by
  have ha := a.isLt
  have hb := b.isLt
  rw [diffByte, BitVec.toNat_ofInt]
  omega

@[simp] theorem carryOut_iff (a b : Byte) : carryOut a b = true ↔ 255 < a.toNat + b.toNat :=
  decide_eq_true_iff

@[simp] theorem notBorrow_iff (a b : Byte) : notBorrow a b = true ↔ b.toNat ≤ a.toNat := by
  rw [notBorrow, decide_eq_true_iff]
  omega

/-! ### A result and its flag -/

/-- The destination ends as the result, x = F included (R171). -/
@[simp] theorem setFlagThenReg_dest (s : State) (x : Nibble) (f r : Byte) : (setFlagThenReg s x f r).reg x = r := by
  rw [setFlagThenReg_reg, if_pos rfl]

theorem setFlagThenReg_vf (s : State) {x : Nibble} (hx : x ≠ vf) (f r : Byte) :
    (setFlagThenReg s x f r).reg vf = f := by
  rw [setFlagThenReg_reg, if_neg hx.symm, if_pos rfl]

/-- A sum and its carry (R170, R171, R178). -/
theorem setFlagThenReg_sum (s : State) (x : Nibble) (a b : Byte) :
    let t := setFlagThenReg s x (flagByte (carryOut a b)) (sumByte a b)
    (t.reg x).toNat = (a.toNat + b.toNat) % 256 ∧
    (x ≠ vf → (t.reg vf).toNat = if 255 < a.toNat + b.toNat then 1 else 0) ∧
    Frame (fun p => p = .reg x ∨ p = .reg vf) s t := by
  refine ⟨by simp, fun hx => ?_, frame_setFlagThenReg s x _ _⟩
  simp only [setFlagThenReg_vf s hx, flagByte_toNat, carryOut_iff]

/-- A difference and its NOT borrow (R170, R171, R179, R181). -/
theorem setFlagThenReg_difference (s : State) (x : Nibble) (a b : Byte) :
    let t := setFlagThenReg s x (flagByte (notBorrow a b)) (diffByte a b)
    (t.reg x).toNat = (256 + a.toNat - b.toNat) % 256 ∧
    (x ≠ vf → (t.reg vf).toNat = if b.toNat ≤ a.toNat then 1 else 0) ∧
    Frame (fun p => p = .reg x ∨ p = .reg vf) s t := by
  refine ⟨by simp, fun hx => ?_, frame_setFlagThenReg s x _ _⟩
  simp only [setFlagThenReg_vf s hx, flagByte_toNat, notBorrow_iff]

/-- With `ADD_IMM_SETS_VF` the immediate sum writes its carry, as 8xy4 does (R173). -/
theorem exec_addImm_flag {s : State} (h : s.cfg.addImmSetsVf = true) (x : Nibble) (kk : Byte) :
    exec (.addImm x kk) s
      = .next (setFlagThenReg s x (flagByte (carryOut (s.reg x) kk)) (sumByte (s.reg x) kk)) := by
  simp only [exec, execAddImm, h]

/-- Without it, Vx alone is written. -/
theorem exec_addImm_noFlag {s : State} (h : s.cfg.addImmSetsVf = false) (x : Nibble) (kk : Byte) :
    exec (.addImm x kk) s = .next (s.setReg x (sumByte (s.reg x) kk)) := by
  simp only [exec, execAddImm, h]

/-! ### The statements -/

/-- Settles O33: each load is one register write. -/
theorem loadRegisterValues : Obligations.LoadRegisterValues := by
  intro s x y kk
  exact ⟨packXKK_fields 6 x kk, packXYN_fields 8 x y 0,
    ⟨_, rfl, by simp, frame_setReg s x kk⟩,
    ⟨_, rfl, by simp, frame_setReg s x (s.reg y)⟩⟩

/-- Settles O34, by the value of `ADD_IMM_SETS_VF`: a sum with its carry, or one register write. -/
theorem addImmediateWraps : Obligations.AddImmediateWraps := by
  intro s x kk
  refine ⟨packXKK_fields 7 x kk, ?_⟩
  cases h : s.cfg.addImmSetsVf with
  | true =>
    obtain ⟨hsum, hcarry, hframe⟩ := setFlagThenReg_sum s x (s.reg x) kk
    exact ⟨_, exec_addImm_flag h x kk, hsum, fun _ => hcarry,
      hframe.mono fun _ hp => hp.imp_right fun hvf => ⟨rfl, hvf⟩⟩
  | false =>
    exact ⟨_, exec_addImm_noFlag h x kk, by simp, fun hset => absurd hset (by decide),
      (frame_setReg s x _).mono fun _ hp => .inl hp⟩

/-- Settles O36: a sum with its carry. -/
theorem addSetsCarry : Obligations.AddSetsCarry := by
  intro s x y
  exact ⟨packXYN_fields 8 x y 4, _, rfl, setFlagThenReg_sum s x (s.reg x) (s.reg y)⟩

/-- Settles O37: a difference with its NOT borrow, with the operands in either order. -/
theorem subtractSetsNotBorrow : Obligations.SubtractSetsNotBorrow := by
  intro s x y
  exact ⟨packXYN_fields 8 x y 5, packXYN_fields 8 x y 7,
    ⟨_, rfl, setFlagThenReg_difference s x (s.reg x) (s.reg y)⟩,
    ⟨_, rfl, setFlagThenReg_difference s x (s.reg y) (s.reg x)⟩⟩

end Sys2Proof.Machine

/-! PROOFS (`43_index_memory.md`, R210, R212 and R213). LD I and LD F are one assignment of I each. LD B is one block
write: when it succeeds each byte of the block reads back, whatever the block is, and when it does not its first address
outside RAM is the fault. -/

namespace Sys2Proof.Machine

/-! ### The assignments of I -/

/-- A 12-bit address fits I: the assignment does not reduce it (R34). -/
theorem setI_addr12_toNat (s : State) (nnn : Addr12) : (s.setI nnn.toNat).i.toNat = nnn.toNat := by
  have := nnn.isLt
  simp only [setI_i, BitVec.toNat_ofNat]
  omega

/-- The mask of `FONT_INDEX_MASKED` is a remainder modulo 16 (R212). -/
theorem fontDigit_eq (s : State) (x : Nibble) :
    fontDigit s x = if s.cfg.fontIndexMasked = true then (s.reg x).toNat % 16 else (s.reg x).toNat := by
  unfold fontDigit
  cases s.cfg.fontIndexMasked with
  | true => exact (BitVec.toNat_and _ _).trans (Nat.and_two_pow_sub_one_eq_mod _ 4)
  | false => rfl

/-- The address of the digit's sprite, five bytes a digit, as I holds it (R212). -/
theorem setI_fontAddress_toNat (s : State) (x : Nibble) :
    (s.setI (fontAddress s.cfg (fontDigit s x))).i.toNat = (s.cfg.fontBase +
      (if s.cfg.fontIndexMasked = true then (s.reg x).toNat % 16 else (s.reg x).toNat) * 5) % 65536 := by
  rw [setI_i, BitVec.toNat_ofNat, fontAddress, fontDigit_eq]

/-! ### A block write read back -/

/-- After a block write each address of the block reads as the byte written there. -/
theorem memRead_writeBytes {bs : List Byte} {s t : State} {a k : Nat} {b : Byte} (h : writeBytes bs s a = .ok t)
    (hb : bs[k]? = some b) : memRead t (a + k) = .ok b := by
  obtain ⟨hk, -⟩ := List.getElem?_eq_some_iff.mp hb
  have hne : bs ≠ [] := List.ne_nil_of_length_pos (by omega)
  rcases Nat.lt_or_ge s.cfg.memSize (a + bs.length) with hout | hfits
  · cases (writeBytes_error hne hout).symm.trans h
  · obtain ⟨m, hw, -, hread⟩ := writeBytes_ok (.inr hfits)
    cases hw.symm.trans h
    have hbyte : Memory.read s.cfg m (a + k) = b := by simp [hread, hb]
    exact (memRead_ok (s := { s with ram := m }) (show a + k < s.cfg.memSize by omega)).trans (congrArg _ hbyte)

/-! ### LD B -/

/-- A number up to the value of a byte, as its digits are, fits a byte. -/
theorem byte_ofNat_toNat_of_le {b : Byte} {n : Nat} (hn : n ≤ b.toNat) : (BitVec.ofNat 8 n).toNat = n :=
  (BitVec.toNat_ofNat _ _).trans (Nat.mod_eq_of_lt (hn.trans_lt b.isLt))

/-- The digits fit in RAM: LD B is the block write of them. -/
theorem exec_ldB_next {x : Nibble} {s t : State} (h : writeBytes (decimalDigits (s.reg x)) s s.i.toNat = .ok t) :
    exec (.ldB x) s = .next t :=
  congrArg finish h

/-- A digit falls outside RAM: the fault is that of the first which does. -/
theorem exec_ldB_outside (x : Nibble) {s : State} (h : s.cfg.memSize ≤ s.i.toNat + 2) :
    exec (.ldB x) s = .fault (.memoryRange (max s.i.toNat s.cfg.memSize)) :=
  congrArg finish (writeBytes_error (List.cons_ne_nil _ _) (Nat.lt_succ_of_le h))

/-! ### The statements -/

/-- Settles O40: LD I and LD F are each one assignment of I. -/
theorem indexLoads : Obligations.IndexLoads := by
  intro s x nnn
  exact ⟨packNNN_field 0xA nnn, packXKK_field 0xF x 0x29,
    ⟨_, rfl, setI_addr12_toNat s nnn, frame_setI s _⟩,
    ⟨_, rfl, setI_fontAddress_toNat s x, frame_setI s _⟩⟩

/-- Settles O42: a block write of the three digits, which `memRead_writeBytes` reads back, or its fault. -/
theorem storeDecimalDigits : Obligations.StoreDecimalDigits := by
  intro s x
  refine ⟨packXKK_field 0xF x 0x33, fun hfits => ?_, exec_ldB_outside x⟩
  have hlength : s.i.toNat + (decimalDigits (s.reg x)).length ≤ s.cfg.memSize := hfits
  obtain ⟨m, hw, -, -⟩ := writeBytes_ok (.inr hlength)
  have hdigit {n : Nat} (hn : n ≤ (s.reg x).toNat) := byte_ofNat_toNat_of_le hn
  exact ⟨_, _, _, _, exec_ldB_next hw,
    memRead_writeBytes (k := 0) hw rfl, memRead_writeBytes (k := 1) hw rfl, memRead_writeBytes (k := 2) hw rfl,
    hdigit (by omega), hdigit (by omega), hdigit (by omega), frame_writeBytes hw⟩

end Sys2Proof.Machine

/-! PROOFS (`44_display.md`, R241 to R243, R245 to R247 and R249). The display pixel by pixel. A row is its 64 pixels, so
`DisplaySet` is said once as a toggle of pixels, with a collision that looks at the same pixels. A sprite has at most 15
rows, fewer than the screen: none of its rows meets another, and each pixel of the row loop is toggled once, from what it
was before the draw. -/

namespace Sys2Proof

/-- Only group 0 gives CLS, and there only one whole word does (R106, R246). -/
theorem decodeWord_eq_cls {w : Word} (h : decodeWord w = some .cls) : w = 0x00E0 := by
  simp only [decodeWord, decodeGroup0, decodeGroup8, decodeGroupE, decodeGroupF] at h
  repeat' split at h
  case h_1.isTrue => assumption
  all_goals cases h

end Sys2Proof

namespace Sys2Proof.Machine

/-! ### A display as its pixels -/

/-- A pixel depends on its row alone. -/
theorem displayGet_congr {d e : Vector Row 32} {r : Nat} (h : d[r]? = e[r]?) (c : Nat) :
    displayGet d c r = displayGet e c r := by
  rw [displayGet, displayGet, h]

/-- The pixels of a row of the screen are its bits, bit 63 leftmost (R44). -/
theorem displayGet_of_lt (d : Vector Row 32) (c : Nat) {r : Nat} (hr : r < 32) :
    displayGet d c r = d[r].getLsbD (63 - c) := by
  simp [displayGet, hr]

/-- The pixels of an empty row are clear. -/
theorem displayGet_zero {d : Vector Row 32} {r : Nat} (h : d[r]? = some 0) (c : Nat) : displayGet d c r = false := by
  simp [displayGet, h]

/-- Two words of a row with the same bit in every column are equal. -/
theorem row_ext {u v : Row} (h : ∀ c, c < 64 → u.getLsbD (63 - c) = v.getLsbD (63 - c)) : u = v :=
  BitVec.eq_of_getLsbD_eq fun j hj => by
    rw [show j = 63 - (63 - j) by omega]
    exact h (63 - j) (by omega)

/-- Two words of a row meet when both have a bit in one column. -/
theorem row_and_ne_zero_iff (u v : Row) :
    u &&& v ≠ 0 ↔ ∃ c, c < 64 ∧ v.getLsbD (63 - c) = true ∧ u.getLsbD (63 - c) = true := by
  constructor
  · intro hne
    by_contra hnone
    refine hne (row_ext fun c hc => ?_)
    rw [BitVec.getLsbD_and, Bool.and_comm]
    exact (Bool.eq_false_iff.mpr fun hboth => hnone ⟨c, hc, Bool.and_eq_true_iff.mp hboth⟩).trans BitVec.getLsbD_zero.symm
  · rintro ⟨c, -, hv, hu⟩ hzero
    have hbit : (u &&& v).getLsbD (63 - c) = true := by rw [BitVec.getLsbD_and, hu, hv]; rfl
    rw [hzero] at hbit
    exact absurd hbit (by simp)

/-- A row with the same 64 pixels is the same row. -/
theorem row_eq_of_displayGet {d e : Vector Row 32} {r : Nat}
    (h : ∀ c, c < 64 → displayGet d c r = displayGet e c r) : d[r]? = e[r]? := by
  rcases Nat.lt_or_ge r 32 with hr | hr
  · have hrow : d[r] = e[r] := row_ext fun c hc => by
      rw [← displayGet_of_lt d c hr, ← displayGet_of_lt e c hr, h c hc]
    simp [hr, hrow]
  · simp [hr]

/-! ### One sprite byte -/

/-- The bits of a placed sprite byte, shifted or clipped, are the pixels it lights (R240 to R242). -/
theorem spriteRow_getLsbD (x : Nat) (b : Byte) {c : Nat} (hc : c < 64) :
    (spriteRow (x % 64) b).getLsbD (63 - c) = spritePixel x b c := by
  unfold spriteRow spritePixel
  generalize x % 64 = a
  split
  case isTrue ha =>
    rcases Nat.lt_or_ge c a with hleft | hleft
    · have hbit : b.getLsbD (63 - c - (56 - a)) = false := BitVec.getLsbD_of_ge _ _ (by omega)
      simp [hbit, Nat.not_le.mpr hleft]
    rcases Nat.lt_or_ge c (a + 8) with hright | hright
    · simp [hleft, hright, show 63 - c - (56 - a) = 7 - (c - a) by omega, show ¬ 63 - c < 56 - a by omega,
        show 63 - c < 64 by omega]
    · simp [Nat.not_lt.mpr hright, show 63 - c < 56 - a by omega]
  case isFalse ha =>
    rcases Nat.lt_or_ge c a with hleft | hleft
    · have hbit : b.getLsbD (a - 56 + (63 - c)) = false := BitVec.getLsbD_of_ge _ _ (by omega)
      simp [hbit, Nat.not_le.mpr hleft]
    · simp [hleft, show a - 56 + (63 - c) = 7 - (c - a) by omega, show c < a + 8 by omega,
        show 7 - (c - a) < 64 by omega]

theorem displaySet_column_wraps (d : Vector Row 32) (x y : Nat) (b : Byte) :
    displaySet d (x + 64) y b = displaySet d x y b := by
  simp only [displaySet, Nat.add_mod_right]

theorem displaySet_row_wraps (d : Vector Row 32) (x y : Nat) (b : Byte) :
    displaySet d x (y + 32) b = displaySet d x y b := by
  simp only [displaySet, Nat.add_mod_right]

/-- One sprite byte toggles the pixels it lights, in its row (R241, R242). -/
theorem displayGet_displaySet (d : Vector Row 32) (x y : Nat) (b : Byte) {c : Nat} (r : Nat) (hc : c < 64) :
    displayGet (displaySet d x y b).1 c r = (displayGet d c r ^^ (decide (r = y % 32) && spritePixel x b c)) := by
  by_cases hr : r = y % 32
  · have hlt : y % 32 < 32 := Nat.mod_lt y (by decide)
    subst hr
    rw [displayGet, displaySet_same]
    simp [displayGet, hlt, spriteRow_getLsbD x b hc]
  · simp [displayGet_congr (displaySet_other d x y b hr) c, hr]

/-- The collision: a lit pixel of the byte meets one that is on (R243). -/
theorem displaySet_collision_iff (d : Vector Row 32) (x y : Nat) (b : Byte) :
    (displaySet d x y b).2 = true ↔
      ∃ c, c < 64 ∧ spritePixel x b c = true ∧ displayGet d c (y % 32) = true := by
  have hlt : y % 32 < 32 := Nat.mod_lt y (by decide)
  simp only [displaySet, decide_eq_true_eq, row_and_ne_zero_iff, displayGet_of_lt d _ hlt]
  exact exists_congr fun c => and_congr_right fun hc => by rw [spriteRow_getLsbD x b hc]

/-! ### The row loop -/

/-- The 31 rows below the one a byte is drawn in, past the bottom edge again from the top, are as they were. -/
theorem displayGet_displaySet_below (d : Vector Row 32) (x y : Nat) (b : Byte) (c : Nat) {k : Nat} (hk : k < 31) :
    displayGet (displaySet d x y b).1 c ((y + 1 + k) % 32) = displayGet d c ((y + 1 + k) % 32) :=
  displayGet_congr (displaySet_other d x y b (by omega)) c

/-- A sprite no higher than the screen: each byte toggles the pixels it lights, in its own row (R247). -/
theorem displayGet_drawRows (x : Nat) {y k c : Nat} {bs : List Byte} {b : Byte} (d : Vector Row 32) (col : Bool)
    (hlen : bs.length ≤ 32) (hb : bs[k]? = some b) (hc : c < 64) :
    displayGet (drawRows x y bs d col).1 c ((y + k) % 32) =
      (displayGet d c ((y + k) % 32) ^^ spritePixel x b c) := by
  induction bs generalizing y k d col with
  | nil => cases hb
  | cons b' bs ih =>
    rw [List.length_cons] at hlen
    rw [drawRows_cons]
    cases k with
    | zero =>
      cases hb
      rw [displayGet_congr (drawRows_other x bs _ _ fun j hj => by omega) c, displayGet_displaySet d x y b _ hc]
      simp
    | succ k =>
      have hk : k < bs.length := Nat.lt_of_succ_lt_succ (List.getElem?_eq_some_iff.mp hb).1
      rw [show y + (k + 1) = y + 1 + k by omega, ih _ _ (by omega) hb,
        displayGet_displaySet_below d x y b' c (by omega)]

/-- A sprite no higher than the screen: the loop collects the collisions with the display before the draw (R247). -/
theorem drawRows_collision_iff (x : Nat) {y : Nat} {bs : List Byte} (d : Vector Row 32) (col : Bool)
    (hlen : bs.length ≤ 32) :
    (drawRows x y bs d col).2 = true ↔ col = true ∨ ∃ k b c, bs[k]? = some b ∧ c < 64 ∧
      spritePixel x b c = true ∧ displayGet d c ((y + k) % 32) = true := by
  induction bs generalizing y d col with
  | nil => simp [drawRows_nil]
  | cons b bs ih =>
    rw [List.length_cons] at hlen
    rw [drawRows_cons, ih _ _ (by omega), Bool.or_eq_true, displaySet_collision_iff, or_assoc]
    refine or_congr_right ⟨?_, ?_⟩
    · rintro (⟨c, hc, hlit, hon⟩ | ⟨k, b', c, hb, hc, hlit, hon⟩)
      · exact ⟨0, b, c, rfl, hc, hlit, hon⟩
      · have hk : k < bs.length := (List.getElem?_eq_some_iff.mp hb).1
        rw [displayGet_displaySet_below d x y b c (by omega)] at hon
        exact ⟨k + 1, b', c, hb, hc, hlit, by rwa [show y + (k + 1) = y + 1 + k by omega]⟩
    · rintro ⟨k, b', c, hb, hc, hlit, hon⟩
      cases k with
      | zero =>
        cases hb
        exact .inl ⟨c, hc, hlit, hon⟩
      | succ k =>
        have hk : k < bs.length := Nat.lt_of_succ_lt_succ (List.getElem?_eq_some_iff.mp hb).1
        rw [show y + (k + 1) = y + 1 + k by omega, ← displayGet_displaySet_below d x y b c (by omega)] at hon
        exact .inr ⟨k, b', c, hb, hc, hlit, hon⟩

/-- The XOR round trip: the same rows drawn once more restore the display (R249). -/
theorem drawRows_twice (x y : Nat) {bs : List Byte} (d : Vector Row 32) (col col' : Bool) (hlen : bs.length ≤ 32)
    (r : Nat) : (drawRows x y bs (drawRows x y bs d col).1 col').1[r]? = d[r]? := by
  by_cases hr : ∃ k, k < bs.length ∧ r = (y + k) % 32
  · obtain ⟨k, hk, rfl⟩ := hr
    refine row_eq_of_displayGet fun c hc => ?_
    have hb : bs[k]? = some bs[k] := List.getElem?_eq_getElem hk
    rw [displayGet_drawRows x _ _ hlen hb hc, displayGet_drawRows x _ _ hlen hb hc, Bool.xor_assoc, Bool.xor_self,
      Bool.xor_false]
  · have hother : ∀ k, k < bs.length → r ≠ (y + k) % 32 := fun k hk hrk => hr ⟨k, hk, hrk⟩
    rw [drawRows_other x bs _ _ hother, drawRows_other x bs _ _ hother]

/-! ### DRW -/

/-- A block read answers exactly when its addresses are inside RAM, and then with the bytes there. -/
theorem readBytes_eq_ok {n : Nat} {s : State} {a : Nat} {bs : List Byte} (h : readBytes n s a = .ok bs) :
    (n = 0 ∨ a + n ≤ s.cfg.memSize) ∧ bs = (List.range n).map (fun k => Memory.read s.cfg s.ram (a + k)) := by
  by_cases hfits : n = 0 ∨ a + n ≤ s.cfg.memSize
  · exact ⟨hfits, Except.ok.inj (h.symm.trans (readBytes_ok hfits))⟩
  · cases (readBytes_error (by omega) (by omega)).symm.trans h

theorem length_of_readBytes {n : Nat} {s : State} {a : Nat} {bs : List Byte} (h : readBytes n s a = .ok bs) :
    bs.length = n := by
  obtain ⟨-, rfl⟩ := readBytes_eq_ok h
  simp

/-- The bytes of a block read are those of RAM, address by address. -/
theorem readBytes_getElem?_iff {n : Nat} {s : State} {a : Nat} {bs : List Byte} (h : readBytes n s a = .ok bs)
    (k : Nat) (b : Byte) : bs[k]? = some b ↔ k < n ∧ memRead s (a + k) = .ok b := by
  obtain ⟨hfits, rfl⟩ := readBytes_eq_ok h
  rcases Nat.lt_or_ge k n with hk | hk
  · simp [hk, memRead_ok (show a + k < s.cfg.memSize by omega)]
  · simp [Nat.not_lt.mpr hk]

/-- States whose RAM reads alike give the same block. -/
theorem readBytes_congr {s t : State} (h : ∀ a, memRead t a = memRead s a) (n a : Nat) :
    readBytes n t a = readBytes n s a := by
  induction n generalizing a with
  | zero => rfl
  | succ n ih => simp only [readBytes, h, ih]

theorem flagByte_eq_one_iff (c : Bool) : flagByte c = 1 ↔ c = true := by cases c <;> decide

theorem flagByte_zero_or_one (c : Bool) : flagByte c = 0 ∨ flagByte c = 1 := by cases c <;> decide

/-- The state after the sprite `bs` is drawn at (Vx, Vy): its rows, and the collision in VF. -/
def State.drawSprite (s : State) (x y : Nibble) (bs : List Byte) : State :=
  let r := drawRows (s.reg x).toNat (s.reg y).toNat bs s.display false
  { s with display := r.1 }.setReg vf (flagByte r.2)

@[simp] theorem drawSprite_i (s : State) (x y : Nibble) (bs : List Byte) : (s.drawSprite x y bs).i = s.i := rfl
@[simp] theorem drawSprite_memRead (s : State) (x y : Nibble) (bs : List Byte) (a : Nat) :
    memRead (s.drawSprite x y bs) a = memRead s a := rfl
@[simp] theorem drawSprite_display (s : State) (x y : Nibble) (bs : List Byte) :
    (s.drawSprite x y bs).display = (drawRows (s.reg x).toNat (s.reg y).toNat bs s.display false).1 := rfl

theorem drawSprite_vf (s : State) (x y : Nibble) (bs : List Byte) :
    (s.drawSprite x y bs).reg vf =
      flagByte (drawRows (s.reg x).toNat (s.reg y).toNat bs s.display false).2 := by
  rw [State.drawSprite, setReg_reg, if_pos rfl]

theorem drawSprite_vf_zero_or_one (s : State) (x y : Nibble) (bs : List Byte) :
    (s.drawSprite x y bs).reg vf = 0 ∨ (s.drawSprite x y bs).reg vf = 1 := by
  rw [drawSprite_vf]
  exact flagByte_zero_or_one _

theorem drawSprite_reg (s : State) (x y : Nibble) (bs : List Byte) {q : Nibble} (hq : q ≠ vf) :
    (s.drawSprite x y bs).reg q = s.reg q := by
  rw [State.drawSprite, setReg_reg, if_neg hq]
  rfl

/-- DRW with its bytes inside RAM draws them. -/
theorem exec_drw_next {x y n : Nibble} {s : State} {bs : List Byte}
    (h : readBytes n.toNat s s.i.toNat = .ok bs) : exec (.drw x y n) s = .next (s.drawSprite x y bs) := by
  simp only [exec, execDrw, h]
  rfl

/-- A byte of the sprite falls outside RAM: the fault is that of the first which does. -/
theorem exec_drw_outside (x y : Nibble) {n : Nibble} {s : State} (hn : n ≠ 0)
    (h : s.cfg.memSize < s.i.toNat + n.toNat) :
    exec (.drw x y n) s = .fault (.memoryRange (max s.i.toNat s.cfg.memSize)) := by
  have hpos : 0 < n.toNat := Nat.pos_of_ne_zero fun h0 => hn (BitVec.eq_of_toNat_eq h0)
  simp only [exec, execDrw, readBytes_error hpos h]
  rfl

/-- Where DRW answers a next state, its bytes were inside RAM. -/
theorem readBytes_of_exec_drw {x y n : Nibble} {s t : State} (h : exec (.drw x y n) s = .next t) :
    ∃ bs, readBytes n.toNat s s.i.toNat = .ok bs ∧ t = s.drawSprite x y bs := by
  cases hread : readBytes n.toNat s s.i.toNat with
  | ok bs => exact ⟨bs, rfl, (Host.Outcome.next.inj ((exec_drw_next hread).symm.trans h)).symm⟩
  | error f =>
    simp only [exec, execDrw, hread] at h
    cases h

section
variable {s : State} {n : Nibble} {bs : List Byte} (hread : readBytes n.toNat s s.i.toNat = .ok bs)
include hread

/-- The sprite of a DRW, of at most 15 rows, is no higher than the screen. -/
theorem spriteHeight_le : bs.length ≤ 32 := by
  have := n.isLt
  rw [length_of_readBytes hread]
  omega

/-- Each byte of RAM a DRW draws toggles the pixels it lights, in its own row (R247). -/
theorem displayGet_drawSprite (x y : Nibble) {k c : Nat} {b : Byte} (hk : k < n.toNat)
    (hb : memRead s (s.i.toNat + k) = .ok b) (hc : c < 64) :
    displayGet (s.drawSprite x y bs).display c (((s.reg y).toNat + k) % 32) =
      (displayGet s.display c (((s.reg y).toNat + k) % 32) ^^ spritePixel (s.reg x).toNat b c) :=
  displayGet_drawRows _ _ _ (spriteHeight_le hread) ((readBytes_getElem?_iff hread k b).mpr ⟨hk, hb⟩) hc

/-- A draw changes VF and the rows of its sprite (R247). -/
theorem frame_drawSprite (x y : Nibble) :
    Frame (fun p => p = .reg vf ∨ ∃ k, k < n.toNat ∧ p = .row (((s.reg y).toNat + k) % 32)) s
      (s.drawSprite x y bs) := by
  rw [← length_of_readBytes hread]
  intro p hp
  cases p with
  | reg q => exact drawSprite_reg s x y bs fun hq => hp (.inl (congrArg Part.reg hq))
  | row r => exact drawRows_other _ bs _ _ fun k hk hrk => hp (.inr ⟨k, hk, congrArg Part.row hrk⟩)
  | _ => rfl

/-- VF is 1 exactly when a lit pixel of the sprite meets one that was on (R247). -/
theorem drawSprite_vf_eq_one_iff (x y : Nibble) :
    (s.drawSprite x y bs).reg vf = 1 ↔ ∃ k b c, k < n.toNat ∧ memRead s (s.i.toNat + k) = .ok b ∧ c < 64 ∧
      spritePixel (s.reg x).toNat b c = true ∧ displayGet s.display c (((s.reg y).toNat + k) % 32) = true := by
  rw [drawSprite_vf, flagByte_eq_one_iff, drawRows_collision_iff _ _ _ (spriteHeight_le hread)]
  simp only [readBytes_getElem?_iff hread, Bool.false_eq_true, false_or, and_assoc]

/-- A draw leaves I and RAM: the same DRW after it reads the same bytes. -/
theorem readBytes_drawSprite (x y : Nibble) :
    readBytes n.toNat (s.drawSprite x y bs) (s.drawSprite x y bs).i.toNat = .ok bs := by
  rw [drawSprite_i, readBytes_congr (drawSprite_memRead s x y bs), hread]

/-- The second draw reports the lit pixels that were clear before the first (R249). -/
theorem drawSprite_twice_vf_eq_one_iff {x y : Nibble} (hx : x ≠ vf) (hy : y ≠ vf) :
    ((s.drawSprite x y bs).drawSprite x y bs).reg vf = 1 ↔
      ∃ k b c, k < n.toNat ∧ memRead s (s.i.toNat + k) = .ok b ∧ c < 64 ∧
        spritePixel (s.reg x).toNat b c = true ∧ displayGet s.display c (((s.reg y).toNat + k) % 32) = false := by
  rw [drawSprite_vf_eq_one_iff (readBytes_drawSprite hread x y), drawSprite_reg s x y bs hx, drawSprite_reg s x y bs hy]
  refine exists_congr fun k => exists_congr fun b => exists_congr fun c => and_congr_right fun hk =>
    and_congr_right fun hb => and_congr_right fun hc => and_congr_right fun hlit => ?_
  rw [displayGet_drawSprite hread x y hk hb hc, hlit, Bool.xor_true, Bool.not_eq_true']

end

/-- The XOR round trip of a whole draw (R249). -/
theorem drawSprite_twice_display (s : State) {x y : Nibble} {bs : List Byte} (hlen : bs.length ≤ 32) (hx : x ≠ vf)
    (hy : y ≠ vf) (r : Nat) : ((s.drawSprite x y bs).drawSprite x y bs).display[r]? = s.display[r]? := by
  rw [drawSprite_display, drawSprite_reg s x y bs hx, drawSprite_reg s x y bs hy]
  exact drawRows_twice _ _ s.display _ _ hlen r

/-! ### CLS -/

/-- Clearing the display changes its 32 rows (R245). -/
theorem frame_displayClear (s : State) : Frame (fun p => ∃ y, y < 32 ∧ p = .row y) s (displayClear s) := by
  intro p hp
  cases p with
  | row y =>
    have hy : 32 ≤ y := Nat.not_lt.mp fun hlt => hp ⟨y, hlt, rfl⟩
    simp [Part.same, hy]
  | _ => rfl

/-! ### The statements -/

/-- Settles O47: only one word of the decoder's group 0 is CLS, and its meaning is one assignment of the display. -/
theorem clearDisplayRows : Obligations.ClearDisplayRows := by
  refine ⟨fun w => ⟨fun h => decodeWord_eq_cls (decode_ok.mp h), fun h => h ▸ rfl⟩, fun s => ?_⟩
  exact ⟨displayClear s, rfl, fun y hy => by simp [hy], frame_displayClear s⟩

/-- Settles O48: a placed byte as its pixels (`spriteRow_getLsbD`), toggled in one row. -/
theorem spriteBytePixels : Obligations.SpriteBytePixels := by
  intro d x y b
  exact ⟨displaySet_column_wraps d x y b, displaySet_row_wraps d x y b,
    fun c r hc _ => displayGet_displaySet d x y b r hc, displaySet_collision_iff d x y b⟩

/-- Settles O49: the row loop over the bytes of a block read, or the fault of that read. -/
theorem drawSpriteRows : Obligations.DrawSpriteRows := by
  intro s x y n
  refine ⟨packXYN_eq_or 0xD x y n, fun hfits => ?_, exec_drw_outside x y⟩
  have hread := readBytes_ok (n := n.toNat) (s := s) (a := s.i.toNat) (hfits.imp_left (congrArg BitVec.toNat))
  exact ⟨_, exec_drw_next hread, fun k b c => displayGet_drawSprite hread x y, drawSprite_vf_zero_or_one s x y _,
    drawSprite_vf_eq_one_iff hread x y, frame_drawSprite hread x y⟩

/-- Settles O50: the second draw reads the same coordinates and bytes, so each lit pixel is toggled back, and those it
meets on are those that were clear before the first. -/
theorem drawTwiceRestores : Obligations.DrawTwiceRestores := by
  intro s t x y n hx hy hdraw
  obtain ⟨bs, hread, rfl⟩ := readBytes_of_exec_drw hdraw
  have hsecond := drawSprite_twice_vf_eq_one_iff hread hx hy
  refine ⟨_, exec_drw_next (readBytes_drawSprite hread x y),
    drawSprite_twice_display s (spriteHeight_le hread) hx hy, hsecond, fun hempty => ?_, fun hclear => ?_⟩
  · refine hsecond.trans (exists_congr fun k => exists_congr fun b => exists_congr fun c => and_congr_right fun _ =>
      and_congr_right fun _ => and_congr_right fun _ => and_iff_left ?_)
    exact displayGet_zero (hempty _ (Nat.mod_lt _ (by decide))) c
  · refine (drawSprite_vf_zero_or_one s x y bs).resolve_right fun hone => ?_
    obtain ⟨k, b, c, hk, hb, hc, hlit, hon⟩ := (drawSprite_vf_eq_one_iff hread x y).mp hone
    exact Bool.false_ne_true ((hclear k b c hk hb hc hlit).symm.trans hon)

end Sys2Proof.Machine

/-! PROOFS (`45_timers_input.md`, R270 to R275 and R277 to R279). The timers and the tone. LD ST, Vx and the tick of the
sound timer both go through its setter, so `soundSet_spec` says once which event a new value of ST sends. What a step can
do to ST, the events and the tone is one relation, `SoundStep`: nothing, a start() with ST positive, or the stop() of the
transition to 0. -/

namespace Sys2Proof.Machine

/-! ### Counting down -/

/-- One less, and 0 from 0 (R270, R273). -/
def countDown (b : Byte) : Byte := if 0 < b.toNat then b - 1 else b

@[simp] theorem countDown_toNat (b : Byte) : (countDown b).toNat = b.toNat - 1 := by
  unfold countDown
  split
  · bv_omega
  · omega

/-- A tick of the delay timer sets it to one less. -/
theorem delayTick_eq_delaySet (s : State) : delayTick s = delaySet s (countDown s.dt) :=
  delayTick_eq s

/-- A tick of the sound timer sets it to one less: the setter sends nothing where ST is 0 already. -/
theorem soundTick_eq_soundSet (s : State) : soundTick s = soundSet s (countDown s.st) := by
  rw [soundTick_eq, soundSet_eq]
  by_cases h : 0 < s.st.toNat
  · simp [countDown, h]
  · simp [countDown, h]

/-! ### The setters -/

theorem frame_delaySet (s : State) (b : Byte) : Frame (· = .delay) s (delaySet s b) := by
  intro p hp
  cases p with
  | delay => exact absurd rfl hp
  | _ => rfl

@[simp] theorem soundSet_dt (s : State) (b : Byte) : (soundSet s b).dt = s.dt := by rw [soundSet_eq]

theorem frame_soundSet (s : State) (b : Byte) :
    Frame (fun p => p = .sound ∨ p = .events ∨ p = .tone) s (soundSet s b) := by
  rw [soundSet_eq]
  intro p hp
  cases p with
  | sound | events | tone => exact absurd (by simp) hp
  | _ => rfl

/-- The sound timer's setter (R272): the value, and the event that the old and the new value decide. -/
theorem soundSet_spec (s : State) (b : Byte) :
    (soundSet s b).st = b ∧
    (0 < b.toNat → (soundSet s b).events = s.events ++ [.start] ∧ (soundSet s b).tone = .on) ∧
    (b.toNat = 0 → 0 < s.st.toNat → (soundSet s b).events = s.events ++ [.stop] ∧ (soundSet s b).tone = .off) ∧
    (b.toNat = 0 → s.st.toNat = 0 → (soundSet s b).events = s.events ∧ (soundSet s b).tone = s.tone) ∧
    Frame (fun p => p = .sound ∨ p = .events ∨ p = .tone) s (soundSet s b) := by
  refine ⟨by rw [soundSet_eq], fun hb => ?_, fun hb hs => ?_, fun hb hs => ?_, frame_soundSet s b⟩
  · simp [soundSet_eq, hb]
  · simp [soundSet_eq, hb, hs]
  · simp [soundSet_eq, hb, hs]

/-! ### What a step can do to the sound timer, the events and the tone -/

/-- ST, the events and the tone are the same in both states. -/
structure SoundSame (s t : State) : Prop where
  st : t.st = s.st
  events : t.events = s.events
  tone : t.tone = s.tone

/-- What a step does to ST, the events and the tone. The tone that is set to OFF without an event is that of a load with
ST = 0 (R51, D29). -/
inductive SoundStep (s t : State) : Prop where
  | quiet (st : t.st = s.st) (events : t.events = s.events)
      (tone : t.tone = s.tone ∨ (t.st.toNat = 0 ∧ t.tone = .off))
  | started (positive : 0 < t.st.toNat) (events : t.events = s.events ++ [.start]) (tone : t.tone = .on)
  | stopped (positive : 0 < s.st.toNat) (zero : t.st.toNat = 0) (events : t.events = s.events ++ [.stop])
      (tone : t.tone = .off)

theorem SoundSame.soundStep {s t : State} (h : SoundSame s t) : SoundStep s t :=
  .quiet h.st h.events (.inl h.tone)

/-- A step from a state with the same ST, events and tone. -/
theorem SoundStep.of_soundSame {s u t : State} (h : SoundStep u t) (hsu : SoundSame s u) : SoundStep s t := by
  obtain ⟨hst, hevents, htone⟩ := hsu
  cases h with
  | quiet st events tone => exact .quiet (st.trans hst) (events.trans hevents) (tone.imp_left (·.trans htone))
  | started positive events tone => exact .started positive (hevents ▸ events) tone
  | stopped positive zero events tone => exact .stopped (hst ▸ positive) zero (hevents ▸ events) tone

theorem soundSet_soundStep (s : State) (b : Byte) : SoundStep s (soundSet s b) := by
  obtain ⟨hst, hstart, hstop, hquiet, -⟩ := soundSet_spec s b
  rcases Nat.eq_zero_or_pos b.toNat with hb | hb
  · rcases Nat.eq_zero_or_pos s.st.toNat with hs | hs
    · obtain ⟨hevents, htone⟩ := hquiet hb hs
      exact .quiet (hst.trans (BitVec.eq_of_toNat_eq (hb.trans hs.symm))) hevents (.inl htone)
    · obtain ⟨hevents, htone⟩ := hstop hb hs
      exact .stopped hs (by rwa [hst]) hevents htone
  · obtain ⟨hevents, htone⟩ := hstart hb
    exact .started (by rwa [hst]) hevents htone

/-! ### The instructions -/

theorem skipIf_soundSame {s t : State} (c : Bool) (h : SoundSame s t) : SoundSame s (skipIf c t) := by
  rw [skipIf_eq]
  exact ⟨h.st, h.events, h.tone⟩

theorem keyTest_soundSame (s : State) (x : Nibble) : SoundSame s (keyTest s x).2 := by
  rcases Nat.lt_or_ge 15 (s.reg x).toNat with hx | hx
  · rw [keyTest_draw hx]
    exact ⟨rfl, rfl, rfl⟩
  · rw [keyTest_key hx]
    exact ⟨rfl, rfl, rfl⟩

/-- LD B that answers a next state has written RAM (R213). -/
theorem exec_ldB_writes {x : Nibble} {s t : State} (h : exec (.ldB x) s = .next t) :
    ∃ m : Memory, t = { s with ram := m } := by
  simp only [exec, execLdB] at h
  cases hw : writeBytes (decimalDigits (s.reg x)) s s.i.toNat with
  | error f => cases hw ▸ h
  | ok u =>
    cases hw ▸ h
    obtain ⟨m, rfl, -⟩ := writeBytes_frame hw
    exact ⟨m, rfl⟩

/-- LD [I], Vx that answers a next state has written RAM and I (R214). -/
theorem exec_stRegs_writes {x : Nibble} {s t : State} (h : exec (.stRegs x) s = .next t) :
    ∃ (m : Memory) (i : Word), t = { s with ram := m, i := i } := by
  simp only [exec, execStRegs] at h
  split at h
  · cases h
  · split at h
    · cases h
    · rename_i hw
      obtain ⟨m, rfl, -⟩ := writeBytes_frame hw
      cases h
      exact ⟨m, _, rfl⟩

/-- LD Vx, [I] that answers a next state has written registers and I (R215). -/
theorem exec_ldRegs_writes {x : Nibble} {s t : State} (h : exec (.ldRegs x) s = .next t) :
    ∃ (v : Vector Byte 16) (i : Word), t = { s with v := v, i := i } := by
  have hx := x.isLt
  simp only [exec, execLdRegs] at h
  split at h
  · cases h
  · rename_i bs hread
    obtain ⟨v, hv, -⟩ := writeRegs_ok (bs := bs) (s := s) (k := 0) (by rw [length_of_readBytes hread]; omega)
    rw [hv] at h
    cases h
    exact ⟨v, _, rfl⟩

/-- Every instruction but LD ST, Vx leaves ST, the events and the tone. -/
theorem exec_soundSame {i : Instr} (hi : ∀ x, i ≠ .ldStVx x) {s t : State} (h : exec i s = .next t) :
    SoundSame s t := by
  cases i with
  | ldStVx x => exact absurd rfl (hi x)
  | ret =>
    rcases Nat.eq_zero_or_pos s.sp with hsp | hsp
    · cases (exec_ret_underflow hsp).symm.trans h
    · cases (exec_ret_next hsp).symm.trans h
      exact ⟨rfl, rfl, rfl⟩
  | call nnn =>
    rcases Nat.lt_or_ge s.sp s.cfg.stackDepth with hsp | hsp
    · cases (exec_call_next nnn hsp).symm.trans h
      exact ⟨rfl, rfl, rfl⟩
    · cases (exec_call_overflow nnn hsp).symm.trans h
  | addImm x kk =>
    cases hflag : s.cfg.addImmSetsVf with
    | true => cases (exec_addImm_flag hflag x kk).symm.trans h; exact ⟨rfl, rfl, rfl⟩
    | false => cases (exec_addImm_noFlag hflag x kk).symm.trans h; exact ⟨rfl, rfl, rfl⟩
  | drw x y n =>
    obtain ⟨bs, -, rfl⟩ := readBytes_of_exec_drw h
    exact ⟨rfl, rfl, rfl⟩
  | ldB x =>
    obtain ⟨m, rfl⟩ := exec_ldB_writes h
    exact ⟨rfl, rfl, rfl⟩
  | stRegs x =>
    obtain ⟨m, i, rfl⟩ := exec_stRegs_writes h
    exact ⟨rfl, rfl, rfl⟩
  | ldRegs x =>
    obtain ⟨v, i, rfl⟩ := exec_ldRegs_writes h
    exact ⟨rfl, rfl, rfl⟩
  | seImm | sneImm | seReg | sneReg =>
    cases h
    exact skipIf_soundSame _ ⟨rfl, rfl, rfl⟩
  | skp x | sknp x =>
    cases h
    exact skipIf_soundSame _ (keyTest_soundSame s x)
  | _ =>
    cases h
    exact ⟨rfl, rfl, rfl⟩

theorem exec_soundStep {i : Instr} {s t : State} (h : exec i s = .next t) : SoundStep s t := by
  by_cases hi : ∃ x, i = .ldStVx x
  · obtain ⟨x, rfl⟩ := hi
    cases h
    exact soundSet_soundStep s (s.reg x)
  · exact (exec_soundSame (not_exists.mp hi) h).soundStep

/-! ### The operations of the host -/

theorem resumeIfEdge_soundSame (s : State) : SoundSame s (resumeIfEdge s) := by
  cases hk : s.pendingKey with
  | none =>
    rw [resumeIfEdge_none hk]
    exact ⟨rfl, rfl, rfl⟩
  | some k =>
    rw [resumeIfEdge_some hk]
    exact ⟨rfl, rfl, rfl⟩

theorem pressKey_soundSame (s : State) (k : Nibble) : SoundSame s (pressKey s k) := by
  rw [pressKey_eq]
  split <;> exact ⟨rfl, rfl, rfl⟩

theorem cpuTick_soundStep {s t : State} (h : cpuTick s = .next t) : SoundStep s t := by
  obtain ⟨-, ⟨-, rfl⟩ | ⟨-, w, i, -, -, hexec⟩⟩ := cpuTick_next h
  · exact (resumeIfEdge_soundSame (inputLock s)).soundStep.of_soundSame ⟨rfl, rfl, rfl⟩
  · exact (exec_soundStep hexec).of_soundSame ⟨rfl, rfl, rfl⟩

theorem timerTick_soundStep {s t : State} (h : timerTick s = .next t) : SoundStep s t := by
  obtain ⟨-, rfl⟩ := timerTick_next h
  rw [delayTick_eq_delaySet, soundTick_eq_soundSet]
  exact (soundSet_soundStep (delaySet s (countDown s.dt)) _).of_soundSame ⟨rfl, rfl, rfl⟩

/-- A load clears the sound timer: the stop() of a positive ST, and the tone OFF (R341, D29). -/
theorem load_soundStep (s : State) (m : Memory) : SoundStep s { resetCore s with ram := m } := by
  rw [resetCore_eq]
  rcases Nat.eq_zero_or_pos s.st.toNat with hs | hs
  · exact .quiet (BitVec.eq_of_toNat_eq hs.symm) (by simp [hs]) (.inr ⟨rfl, rfl⟩)
  · exact .stopped hs rfl (by simp [hs]) rfl

theorem loadOp_soundStep {image : Option (List Byte)} {s t : State} (h : loadOp image s = .next t) :
    SoundStep s t := by
  obtain ⟨bytes, -, -, hload⟩ := loadOp_next h
  obtain ⟨m, rfl, -⟩ := writeBytes_frame hload
  exact load_soundStep s m

theorem hostOp_soundStep {op : HostOp} {s t : State} (h : hostOp op s = .next t) : SoundStep s t := by
  cases op with
  | load image => exact loadOp_soundStep h
  | cpuTick => exact cpuTick_soundStep h
  | timerTick => exact timerTick_soundStep h
  | keyDown k =>
    obtain ⟨-, rfl⟩ := keyDown_next h
    exact (pressKey_soundSame s _).soundStep
  | keyUp k =>
    obtain ⟨-, rfl⟩ := keyUp_next h
    exact .quiet rfl rfl (.inl rfl)

theorem step_soundStep {s t : State} (h : step s = .next t) : SoundStep s t := by
  obtain ⟨op, u, rfl, hop⟩ := step_next h
  exact (hostOp_soundStep hop).of_soundSame ⟨rfl, rfl, rfl⟩

/-- R275 across a step. -/
theorem SoundStep.tone_on_iff {s t : State} (h : SoundStep s t) (hs : s.tone = .on ↔ 0 < s.st.toNat) :
    t.tone = .on ↔ 0 < t.st.toNat := by
  cases h with
  | quiet st events tone =>
    rcases tone with tone | ⟨zero, tone⟩
    · rw [tone, st]
      exact hs
    · simp [tone, zero]
  | started positive events tone => simp [tone, positive]
  | stopped positive zero events tone => simp [tone, zero]

/-- R274: the new events of a step, and stop() among them. -/
theorem SoundStep.stop_count {s t : State} (h : SoundStep s t) :
    ∃ new, t.events = s.events ++ new ∧
      new.count .stop = (if 0 < s.st.toNat ∧ t.st.toNat = 0 then 1 else 0) := by
  cases h with
  | quiet st events tone =>
    refine ⟨[], by simp [events], ?_⟩
    rw [if_neg (by rw [st]; omega)]
    rfl
  | started positive events tone =>
    refine ⟨[.start], events, ?_⟩
    rw [if_neg (by omega)]
    rfl
  | stopped positive zero events tone =>
    refine ⟨[.stop], events, ?_⟩
    rw [if_pos ⟨positive, zero⟩]
    rfl

/-! ### The statements -/

/-- Settles O19: at reset by evaluation, and across a step by `SoundStep.tone_on_iff`. -/
theorem toneFollowsSoundTimer : Obligations.ToneFollowsSoundTimer :=
  ⟨by decide, fun _ _ hs hstep => (step_soundStep hstep).tone_on_iff hs⟩

/-- Settles O20: by the three cases of `SoundStep`. -/
theorem stopOncePerTransition : Obligations.StopOncePerTransition :=
  fun _ _ hstep => (step_soundStep hstep).stop_count

/-- Settles O52: a register write, and the delay timer's setter. -/
theorem delayTimerTransfers : Obligations.DelayTimerTransfers := by
  intro s x
  exact ⟨packXKK_field 0xF x 0x07, packXKK_field 0xF x 0x15,
    ⟨_, rfl, by simp, frame_setReg s x s.dt⟩,
    ⟨_, rfl, rfl, frame_delaySet s (s.reg x)⟩⟩

/-- Settles O53: the meaning is the setter, so `soundSet_spec` is the statement. -/
theorem soundTimerSet : Obligations.SoundTimerSet := by
  intro s x
  exact ⟨packXKK_field 0xF x 0x18, _, rfl, soundSet_spec s (s.reg x)⟩

/-- Settles O54: each timer's setter on one less than its value. -/
theorem timerTickCountsDown : Obligations.TimerTickCountsDown := by
  intro s hs
  have htick : hostOp .timerTick s = .next (soundSet (delaySet s (countDown s.dt)) (countDown s.st)) := by
    rw [← delaySet_st s, ← soundTick_eq_soundSet, ← delayTick_eq_delaySet]
    exact timerTick_ok hs
  obtain ⟨hst, hstart, hstop, hquiet, hframe⟩ := soundSet_spec (delaySet s (countDown s.dt)) (countDown s.st)
  have hcount := congrArg BitVec.toNat hst
  rw [countDown_toNat] at hcount hstart hstop hquiet
  refine ⟨_, htick, by simp, hcount, fun h => hstart (by omega), fun h => hstop (by omega) (by simp [h]),
    fun h => hquiet (by omega) h, ?_⟩
  exact ((frame_delaySet s _).mono fun _ h => .inl h).trans (hframe.mono fun _ h => .inr h)

end Sys2Proof.Machine

/-! PROOFS (`60_exceptions.md`, R324). A key release is one assignment of the live mask, which clears one bit of it. -/

namespace Sys2Proof.Machine

/-! ### Releasing a key -/

/-- Every key the host can name reaches `releaseKey` (R324). -/
theorem keyUp_ok {k : Nat} (hk : k < 16) (s : State) : keyUp k s = .next (releaseKey s (BitVec.ofNat 4 k)) :=
  if_pos hk

theorem releaseKey_live_getLsbD (s : State) (k : Nibble) {j : Nat} (hj : j < 16) :
    (releaseKey s k).live.getLsbD j = (decide (j ≠ k.toNat) && s.live.getLsbD j) := by
  have hmask : (1#16 <<< k.toNat).getLsbD j = decide (k.toNat = j) := by
    rw [← BitVec.twoPow_eq, BitVec.getLsbD_twoPow]
    simp [show k.toNat < 16 from k.isLt]
  rw [releaseKey_live, BitVec.getLsbD_and, BitVec.getLsbD_not, hmask]
  simp [hj, Bool.and_comm, eq_comm]

theorem frame_releaseKey (s : State) (k : Nibble) : Frame (· = .live) s (releaseKey s k) := by
  intro p hp
  cases p with
  | live => exact absurd rfl hp
  | _ => rfl

/-! ### The statements -/

/-- Settles O58: the release of the key the number names, bit by bit and with its frame. -/
theorem keyUpClearsBit : Obligations.KeyUpClearsBit := by
  intro s k hk
  have hnum : (BitVec.ofNat 4 k).toNat = k := by
    rw [BitVec.toNat_ofNat, Nat.mod_eq_of_lt hk]
  exact ⟨releaseKey s (BitVec.ofNat 4 k), keyUp_ok hk s,
    fun j hj => by rw [releaseKey_live_getLsbD s _ hj, hnum], frame_releaseKey s _⟩

end Sys2Proof.Machine

/-! PROOFS (`30_encoding.md`, R101, R106 to R116). The decoder and the encoder are inverse to each other: the fields
of an opcode are the operands it was packed from, and a word whose selecting fields are fixed is the packing of its
fields. So a word decodes to an instruction exactly when it is that instruction's opcode, and every claim about
recognized words is one about opcodes. -/

namespace Sys2Proof

/-! ### The instruction of an opcode -/

/-- R106: each form is found again by the fields its group is selected by. -/
theorem decodeWord_encode (i : Instr) : decodeWord (encode i) = some i := by
  cases i with
  | cls | ret => rfl
  | jp | call | ldI | jpV0 => simp [encode, decodeWord, fieldH_packNNN, fieldNNN_packNNN, -fieldH_toNat]
  | seImm | sneImm | ldImm | addImm | rnd =>
    simp [encode, decodeWord, fieldH_packXKK, fieldX_packXKK, fieldKK_packXKK, -fieldH_toNat]
  | seReg | sneReg | drw =>
    simp [encode, decodeWord, fieldH_packXYN, fieldX_packXYN, fieldY_packXYN, fieldN_packXYN, -fieldH_toNat]
  | ldReg | orReg | andReg | xorReg | addReg | subReg | shr | subn | shl =>
    simp [encode, decodeWord, decodeGroup8, fieldH_packXYN, fieldX_packXYN, fieldY_packXYN, fieldN_packXYN,
      -fieldH_toNat, -fieldN_toNat]
  | skp | sknp =>
    simp [encode, decodeWord, decodeGroupE, fieldH_packXKK, fieldX_packXKK, fieldKK_packXKK, -fieldH_toNat,
      -fieldKK_toNat]
  | ldVxDt | ldVxK | ldDtVx | ldStVx | addI | ldF | ldB | stRegs | ldRegs =>
    simp [encode, decodeWord, decodeGroupF, fieldH_packXKK, fieldX_packXKK, fieldKK_packXKK, -fieldH_toNat,
      -fieldKK_toNat]

/-! ### The opcode of an instruction -/

theorem packNNN_eq_word {w : Word} {h : Nibble} (hh : (fieldH w).toNat = h.toNat) : packNNN h (fieldNNN w) = w := by
  refine BitVec.eq_of_toNat_eq ?_
  simp only [fieldH_toNat, packNNN_toNat, fieldNNN_toNat] at hh ⊢
  omega

theorem packXKK_eq_word {w : Word} {h : Nibble} {kk : Byte} (hh : (fieldH w).toNat = h.toNat)
    (hk : (fieldKK w).toNat = kk.toNat) : packXKK h (fieldX w) kk = w := by
  refine BitVec.eq_of_toNat_eq ?_
  simp only [fieldH_toNat, fieldKK_toNat, packXKK_toNat, fieldX_toNat] at hh hk ⊢
  omega

theorem packXYN_eq_word {w : Word} {h n : Nibble} (hh : (fieldH w).toNat = h.toNat)
    (hn : (fieldN w).toNat = n.toNat) : packXYN h (fieldX w) (fieldY w) n = w := by
  refine BitVec.eq_of_toNat_eq ?_
  simp only [fieldH_toNat, fieldN_toNat, packXYN_toNat, fieldX_toNat, fieldY_toNat] at hh hn ⊢
  omega

theorem encode_of_decodeGroup0 {w : Word} {i : Instr} (h : decodeGroup0 w = some i) : encode i = w := by
  unfold decodeGroup0 at h
  split at h
  · rename_i hw
    cases h
    exact hw.symm
  · split at h <;> cases h
    rename_i hw
    exact hw.symm

theorem encode_of_decodeGroup8 {w : Word} {i : Instr} (hh : (fieldH w).toNat = 0x8) (h : decodeGroup8 w = some i) :
    encode i = w := by
  unfold decodeGroup8 at h
  split at h <;> cases h
  all_goals
    rename_i hn
    exact packXYN_eq_word hh hn

theorem encode_of_decodeGroupE {w : Word} {i : Instr} (hh : (fieldH w).toNat = 0xE) (h : decodeGroupE w = some i) :
    encode i = w := by
  unfold decodeGroupE at h
  split at h <;> cases h
  all_goals
    rename_i hk
    exact packXKK_eq_word hh hk

theorem encode_of_decodeGroupF {w : Word} {i : Instr} (hh : (fieldH w).toNat = 0xF) (h : decodeGroupF w = some i) :
    encode i = w := by
  unfold decodeGroupF at h
  split at h <;> cases h
  all_goals
    rename_i hk
    exact packXKK_eq_word hh hk

/-- R110: the fields an opcode is selected by and those it carries as operands are all of it. -/
theorem encode_of_decodeWord {w : Word} {i : Instr} (h : decodeWord w = some i) : encode i = w := by
  unfold decodeWord at h
  split at h
  case h_1 => exact encode_of_decodeGroup0 h
  case h_9 hh => exact encode_of_decodeGroup8 hh h
  case h_15 hh => exact encode_of_decodeGroupE hh h
  case h_16 hh => exact encode_of_decodeGroupF hh h
  case h_17 => cases h
  case h_6 hh | h_10 hh =>
    split at h <;> cases h
    rename_i hn
    exact packXYN_eq_word hh (congrArg BitVec.toNat hn)
  case h_14 hh => cases h; exact packXYN_eq_word hh rfl
  case h_2 hh | h_3 hh | h_11 hh | h_12 hh => cases h; exact packNNN_eq_word hh
  case h_4 hh | h_5 hh | h_7 hh | h_8 hh | h_13 hh => cases h; exact packXKK_eq_word hh rfl

/-- A word decodes to an instruction exactly when it is its opcode. -/
theorem decode_eq_ok_iff {w : Word} {i : Instr} : decode w = .ok i ↔ encode i = w :=
  decode_ok.trans ⟨encode_of_decodeWord, fun h => h ▸ decodeWord_encode i⟩

theorem decode_encode (i : Instr) : decode (encode i) = .ok i := decode_eq_ok_iff.mpr rfl

/-! ### The rows of the opcode map -/

theorem fieldH_and (w m : Word) : fieldH (w &&& m) = fieldH w &&& fieldH m := BitVec.extractLsb'_and

theorem fieldN_and (w m : Word) : fieldN (w &&& m) = fieldN w &&& fieldN m := BitVec.extractLsb'_and

theorem fieldKK_and (w m : Word) : fieldKK (w &&& m) = fieldKK w &&& fieldKK m := BitVec.extractLsb'_and

/-- Every row fixes the high nibble. -/
theorem OpcodeRow.fieldH_of_selects {r : OpcodeRow} {w : Word} (h : r.selects w = true) (hm : fieldH r.mask = 0xF) :
    w.toNat / 4096 = r.bits.toNat / 4096 := by
  rw [← fieldH_toNat, ← fieldH_toNat, ← (of_decide_eq_true h : w &&& r.mask = r.bits), fieldH_and, hm]
  exact congrArg BitVec.toNat (BitVec.and_allOnes (x := fieldH w)).symm

/-- The rows of groups 5, 8 and 9 fix the low nibble (R108, R112). -/
theorem OpcodeRow.fieldN_of_selects {r : OpcodeRow} {w : Word} (h : r.selects w = true) (hm : fieldN r.mask = 0xF) :
    w.toNat % 16 = r.bits.toNat % 16 := by
  rw [← fieldN_toNat, ← fieldN_toNat, ← (of_decide_eq_true h : w &&& r.mask = r.bits), fieldN_and, hm]
  exact congrArg BitVec.toNat (BitVec.and_allOnes (x := fieldN w)).symm

/-- The rows of groups E and F fix the low byte (R113, R114). -/
theorem OpcodeRow.fieldKK_of_selects {r : OpcodeRow} {w : Word} (h : r.selects w = true)
    (hm : fieldKK r.mask = 0xFF) : w.toNat % 256 = r.bits.toNat % 256 := by
  rw [← fieldKK_toNat, ← fieldKK_toNat, ← (of_decide_eq_true h : w &&& r.mask = r.bits), fieldKK_and, hm]
  exact congrArg BitVec.toNat (BitVec.and_allOnes (x := fieldKK w)).symm

/-- A row whose mask is the whole word selects one word (R106). -/
theorem OpcodeRow.eq_bits_of_selects {r : OpcodeRow} {w : Word} (h : r.selects w = true) (hm : r.mask = 0xFFFF) :
    w = r.bits := by
  rw [← (of_decide_eq_true h : w &&& r.mask = r.bits), hm]
  exact (BitVec.and_allOnes (x := w)).symm

theorem decodeWord_ne_none_of_primaryRow {r : OpcodeRow} (hr : r ∈ primaryRows) {w : Word} (h : r.selects w = true) :
    decodeWord w ≠ none := by
  simp only [primaryRows, List.mem_cons, List.not_mem_nil, or_false] at hr
  rcases hr with rfl | rfl | hr
  · cases OpcodeRow.eq_bits_of_selects h rfl
    decide
  · cases OpcodeRow.eq_bits_of_selects h rfl
    decide
  · rcases hr with rfl | rfl | rfl | rfl | rfl | rfl | rfl | rfl | rfl | rfl
    all_goals simp [decodeWord, OpcodeRow.fieldH_of_selects h rfl]

theorem decodeWord_ne_none_of_lowNibbleRow {r : OpcodeRow} (hr : r ∈ lowNibbleRows) {w : Word}
    (h : r.selects w = true) : decodeWord w ≠ none := by
  simp only [lowNibbleRows, List.mem_cons, List.not_mem_nil, or_false] at hr
  rcases hr with rfl | rfl | rfl | rfl | rfl | rfl | rfl | rfl | rfl | rfl | rfl
  all_goals
    simp [decodeWord, decodeGroup8, ← BitVec.toNat_inj, OpcodeRow.fieldH_of_selects h rfl,
      OpcodeRow.fieldN_of_selects h rfl]

theorem decodeWord_ne_none_of_lowByteRow {r : OpcodeRow} (hr : r ∈ lowByteRows) {w : Word}
    (h : r.selects w = true) : decodeWord w ≠ none := by
  simp only [lowByteRows, List.mem_cons, List.not_mem_nil, or_false] at hr
  rcases hr with rfl | rfl | rfl | rfl | rfl | rfl | rfl | rfl | rfl | rfl | rfl
  all_goals
    simp [decodeWord, decodeGroupE, decodeGroupF, OpcodeRow.fieldH_of_selects h rfl,
      OpcodeRow.fieldKK_of_selects h rfl]

/-- R115: a word that selects a row of the map is recognized by the decoder. -/
theorem decodeWord_ne_none_of_selects {r : OpcodeRow} (hr : r ∈ opcodeRows) {w : Word} (h : r.selects w = true) :
    decodeWord w ≠ none := by
  rcases List.mem_append.mp hr with hr | hr
  · rcases List.mem_append.mp hr with hr | hr
    · exact decodeWord_ne_none_of_primaryRow hr h
    · exact decodeWord_ne_none_of_lowNibbleRow hr h
  · exact decodeWord_ne_none_of_lowByteRow hr h

/-- Two rows whose bits differ where both masks look: no word selects both. -/
def OpcodeRow.apart (r q : OpcodeRow) : Bool := decide (r.bits &&& q.mask ≠ q.bits &&& r.mask)

theorem OpcodeRow.not_selects_both_of_apart {r q : OpcodeRow} {w : Word} (h : r.apart q = true) :
    ¬ (r.selects w = true ∧ q.selects w = true) := by
  rintro ⟨hr, hq⟩
  refine of_decide_eq_true h ?_
  rw [← (of_decide_eq_true hr : w &&& r.mask = r.bits), ← (of_decide_eq_true hq : w &&& q.mask = q.bits)]
  ac_rfl

/-- R111: the rows of the map are apart, each from every other. -/
theorem opcodeRows_pairwise_apart : opcodeRows.Pairwise (fun r q => r.apart q = true) := by decide

/-- Of a list of which no two elements satisfy `p`, a filter by `p` leaves one at most. -/
theorem filter_eq_singleton {α : Type} {p : α → Bool} {l : List α} {a : α} (ha : a ∈ l) (hp : p a = true)
    (h : l.Pairwise fun x y => ¬ (p x = true ∧ p y = true)) : l.filter p = [a] := by
  induction l with
  | nil => cases ha
  | cons b l ih =>
    obtain ⟨hb, hl⟩ := List.pairwise_cons.mp h
    rcases List.mem_cons.mp ha with rfl | ha
    · rw [List.filter_cons_of_pos hp, List.filter_eq_nil_iff.mpr fun y hy hpy => hb y hy ⟨hp, hpy⟩]
    · rw [List.filter_cons_of_neg fun hpb => hb a ha ⟨hpb, hp⟩, ih ha hl]

open Laws.MapRow in
/-- The family `MapRow`, for every instruction. -/
theorem mapRow_statement (i : Instr) : Statement i := by
  cases i with
  | cls => exact cls
  | ret => exact ret
  | jp nnn => exact jp nnn
  | call nnn => exact call nnn
  | seImm x kk => exact seImm x kk
  | sneImm x kk => exact sneImm x kk
  | seReg x y => exact seReg x y
  | ldImm x kk => exact ldImm x kk
  | addImm x kk => exact addImm x kk
  | ldReg x y => exact ldReg x y
  | orReg x y => exact orReg x y
  | andReg x y => exact andReg x y
  | xorReg x y => exact xorReg x y
  | addReg x y => exact addReg x y
  | subReg x y => exact subReg x y
  | shr x y => exact shr x y
  | subn x y => exact subn x y
  | shl x y => exact shl x y
  | sneReg x y => exact sneReg x y
  | ldI nnn => exact ldI nnn
  | jpV0 nnn => exact jpV0 nnn
  | rnd x kk => exact rnd x kk
  | drw x y n => exact drw x y n
  | skp x => exact skp x
  | sknp x => exact sknp x
  | ldVxDt x => exact ldVxDt x
  | ldVxK x => exact ldVxK x
  | ldDtVx x => exact ldDtVx x
  | ldStVx x => exact ldStVx x
  | addI x => exact addI x
  | ldF x => exact ldF x
  | ldB x => exact ldB x
  | stRegs x => exact stRegs x
  | ldRegs x => exact ldRegs x

/-- R111: an opcode selects exactly one row, that of its instruction. -/
theorem filter_selects_encode (i : Instr) :
    ∃ r, opcodeRows.filter (fun q => q.selects (encode i)) = [r] ∧ r.mnemonic = i.mnemonic := by
  obtain ⟨r, hr, hname, hsel⟩ := mapRow_statement i
  exact ⟨r, filter_eq_singleton hr hsel (opcodeRows_pairwise_apart.imp OpcodeRow.not_selects_both_of_apart), hname⟩

/-! ### The words that are no opcode -/

theorem decodeGroup0_eq_none_iff (w : Word) : decodeGroup0 w = none ↔ w ≠ 0x00E0 ∧ w ≠ 0x00EE := by
  unfold decodeGroup0
  split_ifs with hcls hret
  · exact iff_of_false (by simp) fun h => h.1 hcls
  · exact iff_of_false (by simp) fun h => h.2 hret
  · exact iff_of_true rfl ⟨hcls, hret⟩

theorem decodeGroup8_eq_none_iff (w : Word) :
    decodeGroup8 w = none ↔ w.toNat % 16 ∈ [0x8, 0x9, 0xA, 0xB, 0xC, 0xD, 0xF] := by
  have hn : w.toNat % 16 < 16 := Nat.mod_lt _ (by decide)
  rw [decodeGroup8, fieldN_toNat]
  generalize w.toNat % 16 = n at hn
  interval_cases n <;> simp

theorem decodeGroupE_eq_none_iff (w : Word) : decodeGroupE w = none ↔ w.toNat % 256 ∉ [0x9E, 0xA1] := by
  rw [decodeGroupE, fieldKK_toNat]
  split <;> simp_all

theorem decodeGroupF_eq_none_iff (w : Word) :
    decodeGroupF w = none ↔ w.toNat % 256 ∉ [0x07, 0x0A, 0x15, 0x18, 0x1E, 0x29, 0x33, 0x55, 0x65] := by
  rw [decodeGroupF, fieldKK_toNat]
  split <;> simp_all

theorem fieldN_eq_zero_iff (w : Word) : fieldN w = 0 ↔ w.toNat % 16 = 0 := by
  rw [← BitVec.toNat_inj, fieldN_toNat]
  rfl

/-! ### The statements -/

/-- Settles O2: the opcode of an instruction is a word that decodes to it. -/
theorem decodeOfEncode : Obligations.DecodeOfEncode := decode_encode

/-- Settles O3: a word that decodes to an instruction is its opcode. -/
theorem encodeOfDecode : Obligations.EncodeOfDecode := fun _ _ => decode_eq_ok_iff.mp

/-- Settles O4: a recognized word is an opcode, which selects the row of its instruction and, as the rows are apart, no
other; and a word that selects a row is recognized. -/
theorem opcodeMapSelectsOneRow : Obligations.OpcodeMapSelectsOneRow := by
  refine ⟨rfl, fun w => ?_⟩
  cases hw : decode w with
  | ok i =>
    cases decode_eq_ok_iff.mp hw
    exact filter_selects_encode i
  | error e =>
    obtain ⟨hnone, he⟩ := decode_error.mp hw
    exact ⟨he, List.filter_eq_nil_iff.mpr fun r hr hsel => decodeWord_ne_none_of_selects hr hsel hnone⟩

/-- Settles O5, by the high nibble: ten groups take every word, and each of the other six its own. -/
theorem unrecognizedWordsByGroup : Obligations.UnrecognizedWordsByGroup := by
  intro w
  have hh : w.toNat / 4096 < 16 := Nat.div_lt_of_lt_mul w.isLt
  rw [decode_error, and_iff_left rfl, decodeWord, fieldH_toNat]
  simp only [fieldN_eq_zero_iff]
  generalize w.toNat / 4096 = h at hh
  interval_cases h
  all_goals
    simp [decodeGroup0_eq_none_iff, decodeGroup8_eq_none_iff, decodeGroupE_eq_none_iff, decodeGroupF_eq_none_iff]

/-- Settles O1: each sample word is the opcode of its instruction; the two others are words of groups 5 and 8 with an
undefined low nibble. -/
theorem sampleOpcodesDecode : Obligations.SampleOpcodesDecode :=
  ⟨decode_encode .cls, decode_encode .ret, decode_encode (.call 0x210), decode_encode (.seImm 3 0x42),
    decode_encode (.sneReg 1 2), decode_encode (.shl 1 2), decode_encode (.rnd 3 0x0F), decode_encode (.drw 0 1 5),
    decode_encode (.sknp 1), decode_encode (.ldVxK 3), decode_encode (.ldRegs 2),
    decode_lowNibble_unrecognized (x := 1) (y := 2) (n := 1) (.inl rfl) (by decide), rfl⟩

end Sys2Proof

/-! PROOFS (`41_control_flow.md`, R141, R143 and R148). RET, and CALL with the RET that follows it: both are a
change of the stack and an assignment of PC, so the pair of them is a change of the stack alone. -/

namespace Sys2Proof.Machine

/-! ### RET and JP V0 -/

/-- Another SP changes SP. -/
theorem frame_withStack_sp (s : State) (n : Nat) : Frame (· = .sp) s (s.withStack s.stack n) := by
  intro p hp
  cases p with
  | sp => exact absurd rfl hp
  | _ => rfl

/-- Another word in slot `k` changes slot `k`. -/
theorem frame_withStack_slot (s : State) (k : Nat) (w : Word) :
    Frame (· = .slot k) s (s.withStack (s.stack.set k w) s.sp) := by
  intro p hp
  cases p with
  | slot j => exact List.getElem?_set_ne fun hkj => hp (congrArg Part.slot hkj.symm)
  | _ => rfl

/-- A 16-bit address is assigned to PC as it is (R35). -/
theorem setPc_word (s : State) (w : Word) : (s.setPc w.toNat).pc = w := by simp

theorem offsetTarget_le (s : State) (nnn : Addr12) : offsetTarget s nnn ≤ 0x10FE := by
  have hnnn := nnn.isLt
  have hreg := (s.reg 0).isLt
  unfold offsetTarget
  omega

/-- RET from the state a CALL has left takes PC from the slot the CALL has written (R141, R143). -/
theorem exec_ret_after_call {s : State} (nnn : Addr12) (hslots : s.sp < s.stack.length) :
    exec .ret ((s.withStack (s.stack.set s.sp s.pc) (s.sp + 1)).setPc nnn.toNat) =
      .next (s.withStack (s.stack.set s.sp s.pc) s.sp) := by
  rw [exec_ret_next (Nat.succ_pos s.sp)]
  have hpushed : (s.stack.set s.sp s.pc)[s.sp]? = some s.pc := List.getElem?_set_self hslots
  simp [State.setPc, State.withStack, hpushed]

/-! ### The statements -/

/-- Settles O26: 0x00EE is the opcode of RET, and its meaning is the pop with the assignment of PC. -/
theorem returnPopsIntoPc : Obligations.ReturnPopsIntoPc := by
  refine ⟨fun w => decode_eq_ok_iff.trans eq_comm, fun s => ⟨fun a hsp ha => ?_, exec_ret_underflow⟩⟩
  have hpop : exec .ret s = .next ((s.withStack s.stack (s.sp - 1)).setPc a.toNat) := by
    rw [exec_ret_next hsp, ha]
    rfl
  exact ⟨_, hpop, setPc_word _ a, rfl,
    ((frame_withStack_sp s _).mono fun _ h => .inr h).trans ((frame_setPc _ _).mono fun _ h => .inl h)⟩

/-- Settles O29: the RET finds the slot of the CALL, so the pair changes that slot and nothing else. -/
theorem callThenReturnComesBack : Obligations.CallThenReturnComesBack := by
  intro s nnn hsp hslots
  exact ⟨_, _, exec_call_next nnn hsp, exec_ret_after_call nnn (hslots ▸ hsp), frame_withStack_slot s s.sp s.pc⟩

/-- Settles O32: one assignment of PC, of a sum that it does not reduce. -/
theorem jumpAddsV0 : Obligations.JumpAddsV0 := by
  intro s nnn
  have hle := offsetTarget_le s nnn
  have hpc : (s.setPc (offsetTarget s nnn)).pc.toNat = offsetTarget s nnn := by
    rw [setPc_pc, BitVec.toNat_ofNat, Nat.mod_eq_of_lt (by omega)]
  exact ⟨packNNN_field 0xB nnn, _, rfl, hpc, hpc.trans_le hle, frame_setPc s _⟩

end Sys2Proof.Machine

/-! PROOFS (`42_alu.md`, R175 to R177, R180, R182 and R183). The logical operations, the shifts and the random byte.
-/

namespace Sys2Proof.Machine

/-! ### Shifts -/

/-- `SHIFT_READS_VY` in plain words (R10). -/
theorem shiftReadsVy_iff (c : Config) : shiftReadsVy c.flags = true ↔ ShiftsVy c := by
  unfold shiftReadsVy ShiftsVy
  cases c.flags.shiftOverride with
  | some b => rfl
  | none => cases c.flags.mode <;> decide

/-- The source of a shift is Vy or Vx, as `SHIFT_READS_VY` says (R180, R182). -/
theorem shiftSource_eq {s : State} {x y : Nibble} {src : Byte} (hy : ShiftsVy s.cfg → src = s.reg y)
    (hx : ¬ ShiftsVy s.cfg → src = s.reg x) : shiftSource s x y = src := by
  rw [← shiftReadsVy_iff] at hy hx
  unfold shiftSource
  cases hf : shiftReadsVy s.cfg.flags with
  | true => exact (hy hf).symm
  | false => exact (hx (by simp [hf])).symm

@[simp] theorem lowBitOut_toNat (b : Byte) : (lowBitOut b).toNat = b.toNat % 2 :=
  (BitVec.toNat_and _ _).trans (Nat.and_two_pow_sub_one_eq_mod _ 1)

@[simp] theorem highBitOut_toNat (b : Byte) : (highBitOut b).toNat = b.toNat / 128 := by
  rw [highBitOut, BitVec.toNat_ushiftRight, Nat.shiftRight_eq_div_pow]

theorem shiftRight_one_toNat (b : Byte) : (b >>> 1).toNat = b.toNat / 2 := by
  rw [BitVec.toNat_ushiftRight, Nat.shiftRight_eq_div_pow]

theorem shiftLeft_one_toNat (b : Byte) : (b <<< 1).toNat = b.toNat * 2 % 256 := by
  rw [BitVec.toNat_shiftLeft, Nat.shiftLeft_eq]

/-! ### The random byte -/

theorem frame_drawByte (s : State) : Frame (· = .draws) s (drawByte s).2 := by
  intro p hp
  cases p with
  | draws => exact absurd rfl hp
  | _ => rfl

/-! ### The statements -/

/-- Settles O35: each meaning is one register write, of a word whose bits the operation gives. -/
theorem logicalOperations : Obligations.LogicalOperations := by
  intro s x y
  exact ⟨packXYN_fields 8 x y 1, packXYN_fields 8 x y 2, packXYN_fields 8 x y 3,
    ⟨_, rfl, by simp, frame_setReg s x _⟩,
    ⟨_, rfl, by simp, frame_setReg s x _⟩,
    ⟨_, rfl, by simp, frame_setReg s x _⟩⟩

/-- Settles O38: a result and its flag, from the source `shiftSource_eq` names. -/
theorem shiftsByOne : Obligations.ShiftsByOne := by
  intro s x y src
  refine ⟨packXYN_fields 8 x y 6, packXYN_fields 8 x y 0xE, fun hy hx => ?_⟩
  have hsrc := shiftSource_eq hy hx
  refine ⟨⟨_, rfl, ?_, fun hvf => ?_, frame_setFlagThenReg s x _ _⟩,
    ⟨_, rfl, ?_, fun hvf => ?_, frame_setFlagThenReg s x _ _⟩⟩
  · rw [hsrc, setFlagThenReg_dest, shiftRight_one_toNat]
  · exact (congrArg BitVec.toNat (setFlagThenReg_vf s hvf _ _)).trans (hsrc ▸ lowBitOut_toNat _)
  · rw [hsrc, setFlagThenReg_dest, shiftLeft_one_toNat]
  · exact (congrArg BitVec.toNat (setFlagThenReg_vf s hvf _ _)).trans (hsrc ▸ highBitOut_toNat _)

/-- Settles O39: a draw, then one register write. -/
theorem randomUnderMask : Obligations.RandomUnderMask := by
  intro s x kk
  exact ⟨packXKK_fields 0xC x kk, _, rfl, by simp [drawByte], rfl,
    ((frame_drawByte s).mono fun _ h => .inr h).trans ((frame_setReg _ x _).mono fun _ h => .inl h)⟩

end Sys2Proof.Machine

/-! PROOFS (`43_index_memory.md`, R211, R214 and R215; `20_memory.md`, R84). ADD I, and the transfers between
registers and RAM. A transfer is the block of V0 to Vx written at I, or the block at I written to V0 to Vx, and then
an assignment of I; a store followed by a load, or by a fetch, reads the block that was written. -/

namespace Sys2Proof.Machine

/-! ### Arithmetic of I -/

/-- The bounds of R6 and R7. -/
theorem wellFormed_iff {c : Config} :
    c.wellFormed = true ↔ c.programStart < c.memSize ∧ c.memSize ≤ 0x10000 ∧
      c.fontBase + 80 ≤ c.programStart ∧ 1 ≤ c.stackDepth := by
  simp [Config.wellFormed, and_assoc]

/-- An index that has wrapped at `MEM_SIZE` fits I (R6, R211). -/
theorem setI_indexPlus_toNat {s : State} (h : s.cfg.wellFormed = true) (k : Nat) :
    (s.setI (indexPlus s k)).i.toNat = (s.i.toNat + k) % s.cfg.memSize := by
  obtain ⟨hpos, hmem, -, -⟩ := wellFormed_iff.mp h
  have hlt : (s.i.toNat + k) % s.cfg.memSize < s.cfg.memSize := Nat.mod_lt _ (by omega)
  rw [setI_i, BitVec.toNat_ofNat, indexPlus, Nat.mod_eq_of_lt (by omega)]

/-- `LOADSTORE_INCREMENTS_I` in plain words (R10). -/
theorem loadStoreIncrementsI_iff (c : Config) : loadStoreIncrementsI c.flags = true ↔ IncrementsI c := by
  unfold loadStoreIncrementsI IncrementsI
  cases c.flags.incrementOverride with
  | some b => rfl
  | none => cases c.flags.mode <;> decide

theorem indexAfterTransfer_of_increments {s : State} (h : IncrementsI s.cfg) (x : Nibble) :
    indexAfterTransfer s x = indexPlus s (x.toNat + 1) := by
  simp only [indexAfterTransfer, (loadStoreIncrementsI_iff s.cfg).mpr h]

theorem indexAfterTransfer_of_not_increments {s : State} (h : ¬ IncrementsI s.cfg) (x : Nibble) :
    indexAfterTransfer s x = s.i.toNat := by
  simp only [indexAfterTransfer, Bool.eq_false_iff.mpr (mt (loadStoreIncrementsI_iff s.cfg).mp h)]

/-- I after a transfer (R214, R215, D12). -/
theorem setI_indexAfterTransfer (s t : State) (x : Nibble) :
    (s.cfg.wellFormed = true → IncrementsI s.cfg →
      (t.setI (indexAfterTransfer s x)).i.toNat = (s.i.toNat + x.toNat + 1) % s.cfg.memSize) ∧
    (¬ IncrementsI s.cfg → (t.setI (indexAfterTransfer s x)).i = s.i) := by
  refine ⟨fun hwf hinc => ?_, fun hinc => ?_⟩
  · rw [indexAfterTransfer_of_increments hinc]
    exact setI_indexPlus_toNat hwf (x.toNat + 1)
  · rw [indexAfterTransfer_of_not_increments hinc]
    simp

/-! ### LD [I], Vx -/

/-- The block LD [I], Vx stores: V0 to Vx (R214). -/
def State.lowRegs (s : State) (x : Nibble) : List Byte :=
  (List.range (x.toNat + 1)).map fun j => s.reg (BitVec.ofNat 4 j)

@[simp] theorem lowRegs_length (s : State) (x : Nibble) : (s.lowRegs x).length = x.toNat + 1 := by
  simp [State.lowRegs]

theorem lowRegs_getElem? (s : State) {x r : Nibble} (h : r.toNat ≤ x.toNat) :
    (s.lowRegs x)[r.toNat]? = some (s.reg r) := by
  simp [State.lowRegs, show r.toNat < x.toNat + 1 by omega]

theorem readRegs_lowRegs (s : State) (x : Nibble) : readRegs (x.toNat + 1) s 0 = .ok (s.lowRegs x) := by
  have := x.isLt
  rw [readRegs_ok (by omega)]
  simp [State.lowRegs]

theorem exec_stRegs_next {x : Nibble} {s t : State} (h : writeBytes (s.lowRegs x) s s.i.toNat = .ok t) :
    exec (.stRegs x) s = .next (t.setI (indexAfterTransfer s x)) := by
  simp only [exec, execStRegs, readRegs_lowRegs, h]

theorem exec_stRegs_outside {x : Nibble} {s : State} (h : s.cfg.memSize ≤ s.i.toNat + x.toNat) :
    exec (.stRegs x) s = .fault (.memoryRange (max s.i.toNat s.cfg.memSize)) := by
  have hw := writeBytes_error (bs := s.lowRegs x) (s := s) (a := s.i.toNat) (List.ne_nil_of_length_pos (by simp))
    (by rw [lowRegs_length]; omega)
  simp only [exec, execStRegs, readRegs_lowRegs, hw]
  rfl

/-- LD [I], Vx inside RAM (R214): the bytes stored, I, and the frame. -/
theorem exec_stRegs_spec {s : State} {x : Nibble} (h : s.i.toNat + x.toNat < s.cfg.memSize) :
    ∃ t, exec (.stRegs x) s = .next t ∧
      (∀ r : Nibble, r.toNat ≤ x.toNat → memRead t (s.i.toNat + r.toNat) = .ok (s.reg r)) ∧
      (s.cfg.wellFormed = true → IncrementsI s.cfg → t.i.toNat = (s.i.toNat + x.toNat + 1) % s.cfg.memSize) ∧
      (¬ IncrementsI s.cfg → t.i = s.i) ∧
      Frame (fun p => p = .index ∨ ∃ k, k ≤ x.toNat ∧ p = .byte (s.i.toNat + k)) s t := by
  obtain ⟨m, hw, -, -⟩ := writeBytes_ok (bs := s.lowRegs x) (s := s) (a := s.i.toNat)
    (.inr (by rw [lowRegs_length]; omega))
  obtain ⟨hinc, hkeep⟩ := setI_indexAfterTransfer s { s with ram := m } x
  refine ⟨_, exec_stRegs_next hw, fun r hr => ?_, hinc, hkeep, ?_⟩
  · rw [setI_memRead]
    exact memRead_writeBytes hw (lowRegs_getElem? s hr)
  refine ((frame_writeBytes hw).mono ?_).trans ((frame_setI _ _).mono fun _ hp => .inl hp)
  rintro p ⟨k, hk, hp⟩
  exact .inr ⟨k, Nat.le_of_lt_succ (hk.trans_eq (lowRegs_length s x)), hp⟩

/-- Where LD [I], Vx answers a next state, its bytes were inside RAM. -/
theorem fits_of_exec_stRegs {s t : State} {x : Nibble} (h : exec (.stRegs x) s = .next t) :
    s.i.toNat + x.toNat < s.cfg.memSize := by
  by_contra hout
  cases (exec_stRegs_outside (Nat.not_lt.mp hout)).symm.trans h

/-! ### LD Vx, [I] -/

theorem exec_ldRegs_next {x : Nibble} {s t : State} {bs : List Byte}
    (hread : readBytes (x.toNat + 1) s s.i.toNat = .ok bs) (hwrite : writeRegs bs s 0 = .ok t) :
    exec (.ldRegs x) s = .next (t.setI (indexAfterTransfer s x)) := by
  simp only [exec, execLdRegs, hread, hwrite]

theorem exec_ldRegs_outside {x : Nibble} {s : State} (h : s.cfg.memSize ≤ s.i.toNat + x.toNat) :
    exec (.ldRegs x) s = .fault (.memoryRange (max s.i.toNat s.cfg.memSize)) := by
  simp only [exec, execLdRegs, readBytes_error (Nat.succ_pos x.toNat) (Nat.lt_succ_of_le h)]
  rfl

/-- Loading a block of registers from index 0 on: each holds its byte of the block. -/
theorem writeRegs_zero_ok {bs : List Byte} (s : State) (h : bs.length ≤ 16) :
    ∃ t, writeRegs bs s 0 = .ok t ∧ (∀ r : Nibble, t.reg r = (bs[r.toNat]?).getD (s.reg r)) ∧
      Frame (fun p => ∃ r : Nibble, r.toNat < bs.length ∧ p = .reg r) s t := by
  obtain ⟨v, hw, hreg⟩ := writeRegs_ok (s := s) (k := 0) (bs := bs) (by omega)
  have hreg (r : Nibble) : ({ s with v := v } : State).reg r = (bs[r.toNat]?).getD (s.reg r) := hreg r
  refine ⟨_, hw, hreg, fun p hp => ?_⟩
  cases p with
  | reg r =>
    have hr : bs.length ≤ r.toNat := Nat.not_lt.mp fun hlt => hp ⟨r, hlt, rfl⟩
    exact (hreg r).trans (by rw [List.getElem?_eq_none hr]; rfl)
  | _ => rfl

/-- LD Vx, [I] inside RAM (R215): the bytes loaded, I, and the frame. -/
theorem exec_ldRegs_spec {s : State} {x : Nibble} (h : s.i.toNat + x.toNat < s.cfg.memSize) :
    ∃ t, exec (.ldRegs x) s = .next t ∧
      (∀ r : Nibble, r.toNat ≤ x.toNat → memRead s (s.i.toNat + r.toNat) = .ok (t.reg r)) ∧
      (s.cfg.wellFormed = true → IncrementsI s.cfg → t.i.toNat = (s.i.toNat + x.toNat + 1) % s.cfg.memSize) ∧
      (¬ IncrementsI s.cfg → t.i = s.i) ∧
      Frame (fun p => p = .index ∨ ∃ r : Nibble, r.toNat ≤ x.toNat ∧ p = .reg r) s t := by
  have hx := x.isLt
  have hread := readBytes_ok (n := x.toNat + 1) (s := s) (a := s.i.toNat) (.inr (by omega))
  have hlen := length_of_readBytes hread
  obtain ⟨t, hw, hreg, hframe⟩ := writeRegs_zero_ok s (hlen.trans_le (by omega))
  obtain ⟨hinc, hkeep⟩ := setI_indexAfterTransfer s t x
  refine ⟨_, exec_ldRegs_next hread hw, fun r hr => ?_, hinc, hkeep, ?_⟩
  · rw [memRead_ok (by omega), setI_reg, hreg, List.getElem?_map, List.getElem?_range (by omega)]
    rfl
  · refine (hframe.mono ?_).trans ((frame_setI _ _).mono fun _ hp => .inl hp)
    rintro p ⟨r, hr, hp⟩
    exact .inr ⟨r, Nat.le_of_lt_succ (hr.trans_eq hlen), hp⟩

/-! ### The fetch -/

/-- A fetch of two bytes in RAM (R104, R73). -/
theorem fetch_of_memRead {s : State} {hi lo : Byte} (hhi : memRead s s.pc.toNat = .ok hi)
    (hlo : memRead s (s.pc.toNat + 1) = .ok lo) : fetch s = .ok (joinBytes hi lo, s.setPc (s.pc.toNat + 2)) := by
  simp only [fetch, hhi, hlo]

/-! ### The statements -/

/-- Settles O41: one assignment of I, of a sum wrapped at `MEM_SIZE`. -/
theorem addToIndexWraps : Obligations.AddToIndexWraps := by
  intro s x hwf
  exact ⟨packXKK_field 0xF x 0x1E, _, rfl, setI_indexPlus_toNat hwf _, frame_setI s _⟩

/-- Settles O43: the block write of V0 to Vx, or its fault. -/
theorem storeRegistersAtIndex : Obligations.StoreRegistersAtIndex := by
  intro s x hwf
  refine ⟨packXKK_field 0xF x 0x55, fun hfits => ?_, exec_stRegs_outside⟩
  obtain ⟨t, hexec, hbytes, hinc, hrest⟩ := exec_stRegs_spec hfits
  exact ⟨t, hexec, hbytes, hinc hwf, hrest⟩

/-- Settles O44: the block read of Vx + 1 bytes loaded into the registers, or its fault. -/
theorem loadRegistersFromIndex : Obligations.LoadRegistersFromIndex := by
  intro s x hwf
  refine ⟨packXKK_field 0xF x 0x65, fun hfits => ?_, exec_ldRegs_outside⟩
  obtain ⟨t, hexec, hregs, hinc, hrest⟩ := exec_ldRegs_spec hfits
  exact ⟨t, hexec, hregs, hinc hwf, hrest⟩

/-- Settles O45: the load reads the bytes the store has written, so the registers end as they were; the two frames leave
the rest. -/
theorem storeThenLoadRestores : Obligations.StoreThenLoadRestores := by
  intro s x hkeep hfits
  obtain ⟨t, hstore, hbytes, -, hti, hstored⟩ := exec_stRegs_spec hfits
  have hcfg : t.cfg = s.cfg := (exec_kept hstore).cfg
  have hti : t.i = s.i := hti hkeep
  obtain ⟨u, hload, hregs, -, hui, hloaded⟩ := exec_ldRegs_spec (s := t) (x := x) (by rwa [hti, hcfg])
  refine ⟨t, u, hstore, hload, fun p hp => ?_⟩
  by_cases hindex : p = .index
  · subst hindex
    exact (hui (hcfg ▸ hkeep)).trans hti
  have hst : p.same s t := hstored p (not_or.mpr ⟨hindex, hp⟩)
  by_cases hreg : ∃ r : Nibble, r.toNat ≤ x.toNat ∧ p = .reg r
  · obtain ⟨r, hr, rfl⟩ := hreg
    exact Except.ok.inj ((hregs r hr).symm.trans (hti ▸ hbytes r hr))
  · exact Part.same_trans hst (hloaded p (not_or.mpr ⟨hindex, hreg⟩))

/-- Settles O46: the fetch reads two bytes the store has written. -/
theorem storedWordIsFetched : Obligations.StoredWordIsFetched := by
  intro s t x p q a hexec hq hqx ha
  obtain ⟨t', hexec', hbytes, -⟩ := exec_stRegs_spec (fits_of_exec_stRegs hexec)
  cases hexec.symm.trans hexec'
  have hhi : memRead { t with pc := a } a.toNat = .ok (s.reg p) := ha ▸ hbytes p (by omega)
  have hlo : memRead { t with pc := a } (a.toNat + 1) = .ok (s.reg q) := by
    rw [show a.toNat + 1 = s.i.toNat + q.toNat by omega]
    exact hbytes q hqx
  exact ⟨_, _, fetch_of_memRead hhi hlo, joinBytes_toNat _ _⟩

end Sys2Proof.Machine

/-! PROOFS (`44_display.md`, R244; `45_timers_input.md`, R281 to R283 and R285; `60_exceptions.md`, R323). Reads of
one bit, of a display row or of a key mask, and the operations on keys that set them. -/

namespace Sys2Proof.Machine

/-! ### One bit -/

/-- A bit of a word as a digit of its value. -/
theorem getLsbD_eq_decide {n : Nat} (w : BitVec n) (k : Nat) : w.getLsbD k = decide (w.toNat / 2 ^ k % 2 = 1) :=
  Nat.testBit_eq_decide_div_mod_eq

/-! ### The key test -/

/-- The key test in one line: the bit of `locked`, with no draw, or the next free truth value (R281, D15). -/
theorem keyTest_eq {s : State} {x : Nibble} {p : Bool}
    (hkey : (s.reg x).toNat ≤ 15 → p = decide (s.locked.toNat / 2 ^ (s.reg x).toNat % 2 = 1))
    (hdraw : 15 < (s.reg x).toNat → p = Config.drawBool s.draws) :
    keyTest s x = (p, { s with draws := s.draws + if (s.reg x).toNat ≤ 15 then 0 else 1 }) := by
  rcases Nat.lt_or_ge 15 (s.reg x).toNat with hx | hx
  · rw [keyTest_draw hx, hdraw hx, if_neg (Nat.not_le.mpr hx)]
    rfl
  · rw [keyTest_key hx, hkey hx, keyBit, getLsbD_eq_decide, if_pos hx]
    rfl

theorem exec_skp_of_keyTest {s t : State} {x : Nibble} {p : Bool} (h : keyTest s x = (p, t)) :
    exec (.skp x) s = .next (skipIf p t) := by
  simp only [exec, execSkp, h]

theorem exec_sknp_of_keyTest {s t : State} {x : Nibble} {p : Bool} (h : keyTest s x = (p, t)) :
    exec (.sknp x) s = .next (skipIf (!p) t) := by
  simp only [exec, execSknp, h]

/-- A skip on a free or a locked bit: PC, the draws counted, and the frame. -/
theorem skipIf_draws_spec (c : Bool) (s : State) (n : Nat) :
    let t := skipIf c { s with draws := s.draws + n }
    t.pc.toNat = (s.pc.toNat + if c then 2 else 0) % 65536 ∧ t.draws = s.draws + n ∧
      Frame (fun p => p = .pc ∨ p = .draws) s t := by
  have hdraws : Frame (· = .draws) s { s with draws := s.draws + n } := by
    intro p hp
    cases p with
    | draws => exact absurd rfl hp
    | _ => rfl
  refine ⟨skipIf_pc c _, by rw [skipIf_eq, setPc_draws], ?_⟩
  exact (hdraws.mono fun _ h => .inr h).trans ((frame_skipIf c _).mono fun _ h => .inl h)

/-! ### The key wait and the key press -/

theorem frame_pauseForKey (s : State) (x : Nibble) :
    Frame (fun p => p = .run ∨ p = .waitReg ∨ p = .pendingKey) s (pauseForKey s x) := by
  intro p hp
  cases p with
  | run | waitReg | pendingKey => exact absurd (by simp) hp
  | _ => rfl

/-- Every key the host can name reaches `pressKey` (R323). -/
theorem keyDown_ok {k : Nat} (hk : k < 16) (s : State) : keyDown k s = .next (pressKey s (BitVec.ofNat 4 k)) :=
  if_pos hk

/-- A press sets the bit of its key, whether it was clear or set. -/
theorem pressKey_live_getLsbD (s : State) (k : Nibble) (j : Nat) :
    (pressKey s k).live.getLsbD j = (decide (j = k.toNat) || s.live.getLsbD j) := by
  rw [pressKey_eq, keyBit]
  by_cases hset : s.live.getLsbD k.toNat = true
  · rw [if_pos hset]
    by_cases hjk : j = k.toNat <;> simp [hjk, hset]
  · have hmask : (1#16 <<< k.toNat).getLsbD j = decide (j = k.toNat) := by
      rw [← BitVec.twoPow_eq, BitVec.getLsbD_twoPow]
      simp [show k.toNat < 16 from k.isLt, eq_comm]
    rw [if_neg hset, BitVec.getLsbD_or, hmask, Bool.or_comm]

/-- An edge is latched while PAUSED, if none is (R285). -/
theorem pressKey_pendingKey (s : State) (k : Nibble) :
    (pressKey s k).pendingKey =
      if s.live.getLsbD k.toNat = false ∧ s.cpu = .paused ∧ s.pendingKey = none then some k else s.pendingKey := by
  rw [pressKey_eq, keyBit]
  cases s.live.getLsbD k.toNat <;> simp

theorem frame_pressKey (s : State) (k : Nibble) :
    Frame (fun p => p = .live ∨ p = .pendingKey) s (pressKey s k) := by
  rw [pressKey_eq]
  split
  · exact Frame.refl _ s
  · intro p hp
    cases p with
    | live | pendingKey => exact absurd (by simp) hp
    | _ => rfl

/-! ### The statements -/

/-- Settles O51: the read of a bit of a row, or the refusal. -/
theorem pixelReadsOneBit : Obligations.PixelReadsOneBit := by
  intro s x y
  refine ⟨fun row hx hrow => ?_, fun hout => if_neg (by omega)⟩
  obtain ⟨hy, -⟩ := Vector.getElem?_eq_some_iff.mp hrow
  rw [pixel, if_pos ⟨hx, Nat.le_of_lt_succ hy⟩, displayGet, hrow]
  exact congrArg Host.Outcome.next (getLsbD_eq_decide row (63 - x))

/-- Settles O55: `keyTest_eq` gives the test and the draws, `skipIf` the rest. -/
theorem skipOnKey : Obligations.SkipOnKey := by
  intro s x p
  refine ⟨packXKK_field 0xE x 0x9E, packXKK_field 0xE x 0xA1, fun hkey hdraw => ?_⟩
  have htest := keyTest_eq hkey hdraw
  obtain ⟨hpc, hdraws, hframe⟩ := skipIf_draws_spec (!p) s (if (s.reg x).toNat ≤ 15 then 0 else 1)
  exact ⟨⟨_, exec_skp_of_keyTest htest, skipIf_draws_spec p s _⟩, _, exec_sknp_of_keyTest htest,
    by cases p <;> exact hpc, hdraws, hframe⟩

/-- Settles O56: the meaning is one assignment of the run state, `waitReg` and the latch. -/
theorem keyWaitPauses : Obligations.KeyWaitPauses := by
  intro s x
  exact ⟨packXKK_field 0xF x 0x0A, _, rfl, rfl, rfl, rfl, frame_pauseForKey s x⟩

/-- Settles O57: the press of the key the number names, bit by bit, with its latch and its frame. -/
theorem keyDownLatchesEdge : Obligations.KeyDownLatchesEdge := by
  intro s k hk
  have hnum : (BitVec.ofNat 4 k).toNat = k := by
    rw [BitVec.toNat_ofNat, Nat.mod_eq_of_lt hk]
  have hlatch := pressKey_pendingKey s (BitVec.ofNat 4 k)
  rw [hnum] at hlatch
  refine ⟨_, keyDown_ok hk s, fun j _ => by rw [pressKey_live_getLsbD, hnum],
    fun hclear hpaused hnone => ⟨_, hlatch.trans (if_pos ⟨hclear, hpaused, hnone⟩), hnum⟩, fun hno => ?_,
    frame_pressKey s _⟩
  refine hlatch.trans (if_neg ?_)
  rintro ⟨hclear, hpaused, hnone⟩
  rcases hno with hset | hrun | hpending
  · exact Bool.false_ne_true (hclear.symm.trans hset)
  · cases hrun.symm.trans hpaused
  · exact hpending hnone

/-- Settles O59: the check both key operations begin with. -/
theorem keysAboveFifteenRefused : Obligations.KeysAboveFifteenRefused :=
  fun _ _ hk => ⟨if_neg (Nat.not_lt.mpr hk), if_neg (Nat.not_lt.mpr hk)⟩

end Sys2Proof.Machine

/-! PROOFS (`30_encoding.md`, R104, R105 and R109; `45_timers_input.md`, R280, R284 and R286; `60_exceptions.md`,
R305, R327 and R347). The fetch, the CPU tick and the step. A fetch is two reads of RAM or the fault of the first
that fails; a tick is refused, or resumes, or runs what the fetch decodes to; and a step is the tick whenever the
schedule says so, on a state that differs in the schedule alone. -/

namespace Sys2Proof.Machine

/-! ### The fetch -/

/-- A fetch that leaves RAM is the fault of the first of its two addresses outside (R104, D13). -/
theorem fetch_error {s : State} (h : s.cfg.memSize ≤ s.pc.toNat + 1) :
    fetch s = .error (.memoryRange (max s.pc.toNat s.cfg.memSize)) := by
  rcases Nat.lt_or_ge s.pc.toNat s.cfg.memSize with hpc | hpc
  · rw [Nat.max_eq_right hpc.le, show s.cfg.memSize = s.pc.toNat + 1 by omega]
    simp only [fetch, memRead_ok hpc, memRead_error h]
  · rw [Nat.max_eq_left hpc]
    simp only [fetch, memRead_error hpc]

/-- A word is the join of the bytes that make up its value (R73). -/
theorem joinBytes_eq {hi lo : Byte} {w : Word} (h : w.toNat = hi.toNat * 256 + lo.toNat) : joinBytes hi lo = w :=
  BitVec.eq_of_toNat_eq ((joinBytes_toNat hi lo).trans h.symm)

/-! ### The CPU tick -/

section
variable {s : State} {hi lo : Byte} {w : Word} (hs : Ready s) (hhi : memRead s s.pc.toNat = .ok hi)
  (hlo : memRead s (s.pc.toNat + 1) = .ok lo) (hw : w.toNat = hi.toNat * 256 + lo.toNat)
include hhi hlo hw

/-- What the tick of `s` fetches, after its snapshot of the keys. -/
theorem fetch_inputLock : fetch (inputLock s) = .ok (w, fetched s) :=
  joinBytes_eq hw ▸ fetch_of_memRead (s := inputLock s) hhi hlo

include hs

/-- The tick of a core that runs, where the bytes at PC are an instruction (R105). -/
theorem cpuTick_exec {i : Instr} (hd : decode w = .ok i) : cpuTick s = exec i (fetched s) := by
  simp only [cpuTick_running hs, fetchAndExecute, fetch_inputLock hhi hlo hw, hd]

/-- The same, where they are none (R109). -/
theorem cpuTick_unrecognized (hd : decode w = .error (.unrecognizedOpcode w)) :
    cpuTick s = .fault (.unrecognizedOpcode w) := by
  simp only [cpuTick_running hs, fetchAndExecute, fetch_inputLock hhi hlo hw, hd]
  rfl

end

/-- The tick of a core that runs, where a byte of the fetch is outside RAM (R302). -/
theorem cpuTick_fetch_outside {s : State} (hs : Ready s) (h : s.cfg.memSize ≤ s.pc.toNat + 1) :
    cpuTick s = .fault (.memoryRange (max s.pc.toNat s.cfg.memSize)) := by
  simp only [cpuTick_running hs, fetchAndExecute, fetch_error (s := inputLock s) h]
  rfl

/-- The core runs whatever its schedule is. -/
theorem Ready.withSchedule {s : State} (h : Ready s) (ops : List HostOp) : Ready { s with schedule := ops } :=
  ⟨⟨h.config, h.loaded, h.noFault⟩, h.running⟩

/-! ### The PAUSED tick -/

theorem frame_inputLock (s : State) : Frame (· = .locked) s (inputLock s) := by
  intro p hp
  cases p with
  | locked => exact absurd rfl hp
  | _ => rfl

theorem resumeIfEdge_reg {s : State} {k : Nibble} (h : s.pendingKey = some k) :
    ((resumeIfEdge s).reg s.waitReg).toNat = k.toNat := by
  have hreg : (resumeIfEdge s).reg s.waitReg = (s.setReg s.waitReg (k.zeroExtend 8)).reg s.waitReg := by
    rw [resumeIfEdge_some h]
    rfl
  have := k.isLt
  rw [hreg, setReg_reg, if_pos rfl]
  exact (BitVec.toNat_setWidth 8 k).trans (Nat.mod_eq_of_lt (by omega))

theorem frame_resumeIfEdge (s : State) :
    Frame (fun p => p = .run ∨ p = .pendingKey ∨ p = .reg s.waitReg) s (resumeIfEdge s) := by
  cases hk : s.pendingKey with
  | none =>
    rw [resumeIfEdge_none hk]
    exact Frame.refl _ s
  | some k =>
    rw [resumeIfEdge_some hk]
    refine ((frame_setReg s s.waitReg (k.zeroExtend 8)).mono fun _ h => .inr (.inr h)).trans fun p hp => ?_
    cases p with
    | run | pendingKey => exact absurd (by simp) hp
    | _ => rfl

/-! ### Refusals -/

theorem cpuTick_refused {s : State} {r : Refusal} (h : tickRefusal s = some r) : cpuTick s = .refused r := by
  simp only [cpuTick, h]

theorem timerTick_refused {s : State} {r : Refusal} (h : tickRefusal s = some r) : timerTick s = .refused r := by
  simp only [timerTick, h]

theorem tickRefusal_badConfiguration {s : State} (h : s.cfg.wellFormed = false) :
    tickRefusal s = some .badConfiguration := by
  simp only [tickRefusal, h]

theorem tickRefusal_notLoaded {s : State} (hc : s.cfg.wellFormed = true) (hl : s.loaded = false) :
    tickRefusal s = some .notLoaded := by
  simp only [tickRefusal, hc, hl]

theorem tickRefusal_faulted {s : State} {f : Fault} (hc : s.cfg.wellFormed = true) (hl : s.loaded = true)
    (hf : s.fault = some f) : tickRefusal s = some (.faulted f) := by
  simp only [tickRefusal, hc, hl, hf]

theorem loadOp_badConfiguration {s : State} (h : s.cfg.wellFormed = false) (image : Option (List Byte)) :
    loadOp image s = .refused .badConfiguration := by
  simp only [loadOp, load, h]

/-! ### A driving cycle of a waiting core -/

/-- With no edge latched a PAUSED tick snapshots the keys (R284). -/
theorem cpuTick_waiting {s : State} (h : Ticks s) (hp : s.cpu = .paused) (hk : s.pendingKey = none) :
    cpuTick s = .next (inputLock s) := by
  rw [cpuTick_paused h hp, resumeIfEdge_none (s := inputLock s) hk]

theorem runOps_waiting_cons {s : State} (h : Ticks s) (hp : s.cpu = .paused) (hk : s.pendingKey = none)
    (ops : List HostOp) : runOps (.cpuTick :: ops) s = runOps ops (inputLock s) := by
  simp only [runOps, hostOp, cpuTick_waiting h hp hk]

/-- Any number of such ticks, of at least one, is one snapshot of the keys. -/
theorem runOps_waiting {s : State} (h : Ticks s) (hp : s.cpu = .paused) (hk : s.pendingKey = none) (n : Nat)
    (ops : List HostOp) : runOps (List.replicate (n + 1) .cpuTick ++ ops) s = runOps ops (inputLock s) := by
  induction n generalizing s with
  | zero => exact runOps_waiting_cons h hp hk ops
  | succ n ih =>
    exact (runOps_waiting_cons h hp hk _).trans (ih (s := inputLock s) ⟨h.config, h.loaded, h.noFault⟩ hp hk)

/-! ### The statements -/

/-- Settles O6: both bytes read, or the fault of `fetch_error`. -/
theorem fetchReadsBigEndian : Obligations.FetchReadsBigEndian := by
  intro s
  refine ⟨fun hi lo hhi hlo => ?_, fun hpc => ?_, fun hpc => ?_⟩
  · exact ⟨_, _, fetch_of_memRead hhi hlo, joinBytes_toNat hi lo, BitVec.toNat_ofNat _ _, frame_setPc s _⟩
  · rw [fetch_error (by omega), Nat.max_eq_left hpc]
  · rw [fetch_error hpc.ge, Nat.max_eq_right (by omega), hpc]

/-- Settles O7: the tick of `cpuTick_exec`, on either schedule. -/
theorem stepRunsDecodedInstruction : Obligations.StepRunsDecodedInstruction := by
  intro s hi lo w i hs hhi hlo hw hd
  refine ⟨fun hsch => (step_nil hsch).trans (cpuTick_exec hs hhi hlo hw hd),
    fun rest hsch => (step_cons hsch).trans (cpuTick_exec (hs.withSchedule rest) hhi hlo hw hd),
    rfl, BitVec.toNat_ofNat _ _, ?_⟩
  exact ((frame_inputLock s).mono fun _ h => .inl h).trans ((frame_setPc _ _).mono fun _ h => .inr h)

/-- Settles O8, by the schedule. -/
theorem stepPerformsScheduledOperation : Obligations.StepPerformsScheduledOperation :=
  fun _ => ⟨step_nil, fun _ _ => step_cons⟩

/-- Settles O9: the tick of `cpuTick_unrecognized` or of `cpuTick_fetch_outside`, on either schedule. -/
theorem stepRaisesFetchFaults : Obligations.StepRaisesFetchFaults := by
  intro s hs
  refine ⟨fun hi lo w hhi hlo hw hd => ⟨fun hsch => ?_, fun rest hsch => ?_⟩,
    fun hout => ⟨fun hsch => ?_, fun rest hsch => ?_⟩⟩
  · exact (step_nil hsch).trans (cpuTick_unrecognized hs hhi hlo hw hd)
  · exact (step_cons hsch).trans (cpuTick_unrecognized (hs.withSchedule rest) hhi hlo hw hd)
  · exact (step_nil hsch).trans (cpuTick_fetch_outside hs hout)
  · exact (step_cons hsch).trans (cpuTick_fetch_outside (hs.withSchedule rest) hout)

/-- Settles O10: the snapshot of the keys, then the resume attempt. -/
theorem pausedTickResumesOnEdge : Obligations.PausedTickResumesOnEdge := by
  intro s hs hsch hp
  have hresume := frame_resumeIfEdge (inputLock s)
  refine ⟨_, (step_nil hsch).trans (cpuTick_paused hs hp), hresume .locked (by simp), fun hnone => ?_,
    fun k hk => ?_⟩
  · rw [resumeIfEdge_none (s := inputLock s) hnone]
    exact frame_inputLock s
  · have hstate := resumeIfEdge_some (s := inputLock s) hk
    refine ⟨resumeIfEdge_reg (s := inputLock s) hk, by rw [hstate], by rw [hstate], ?_⟩
    exact ((frame_inputLock s).mono fun _ h => .inl h).trans (hresume.mono fun _ h => .inr h)

/-- Settles O11: the refusal of a tick in the order it is asked, and that of a load. -/
theorem ticksRefusedOutsideARun : Obligations.TicksRefusedOutsideARun := by
  intro s
  refine ⟨fun hc => ?_, fun hc hl => ?_, fun f hc hl hf => ?_⟩
  · have hr := tickRefusal_badConfiguration hc
    exact ⟨cpuTick_refused hr, timerTick_refused hr, loadOp_badConfiguration hc⟩
  · have hr := tickRefusal_notLoaded hc hl
    exact ⟨cpuTick_refused hr, timerTick_refused hr⟩
  · have hr := tickRefusal_faulted hc hl hf
    exact ⟨cpuTick_refused hr, timerTick_refused hr⟩

/-- Settles O60: the CPU ticks by `runOps_waiting`, the timer tick by O54. -/
theorem timersRunDuringKeyWait : Obligations.TimersRunDuringKeyWait := by
  intro s hs hp hk hpos
  obtain ⟨n, hn⟩ : ∃ n, s.cfg.cpuTicksPerTimerTick = n + 1 := ⟨_, (Nat.sub_add_cancel hpos).symm⟩
  obtain ⟨t, htick, hdt, hst, -, -, -, hframe⟩ :=
    timerTickCountsDown (inputLock s) ⟨hs.config, hs.loaded, hs.noFault⟩
  refine ⟨t, ?_, hframe .locked (by simp), hdt, hst, ?_⟩
  · rw [cycleOps, hn, runOps_waiting hs hp hk]
    simp only [runOps, htick]
  · exact ((frame_inputLock s).mono fun _ h => .inl h).trans (hframe.mono fun _ h => .inr h)

end Sys2Proof.Machine

/-! PROOFS (`70_reset_and_hazards.md`, R340 to R347; `10_state.md`, R51; `60_exceptions.md`, R305 and R320). Reset,
load and what follows a fault. A load of an image that fits leaves the reset state but for a few named fields, and
RAM that reads as the image over the font; a load of a longer one faults after its reset; and a fault is recorded in
a state whose ticks are refused, which such a load leaves again. -/

namespace Sys2Proof.Machine

/-! ### The bytes a reset leaves -/

theorem resetByte_font {c : Config} {j : Nat} {b : Byte} (h : c.font[j]? = some b) :
    resetByte c (c.fontBase + j) = b := by
  rw [resetByte, if_pos (Nat.le_add_right _ _), Nat.add_sub_cancel_left, h]
  rfl

theorem resetByte_outside_font {c : Config} {a : Nat} (h : ¬ (c.fontBase ≤ a ∧ a < c.fontBase + 80)) :
    resetByte c a = 0 := by
  unfold resetByte
  split
  · rw [Vector.getElem?_eq_none (by omega)]
    rfl
  · rfl

theorem memRead_reset {a : Nat} (h : a < 4096) : memRead State.reset a = .ok (resetByte bootConfig a) :=
  memRead_ok (s := State.reset) h

theorem reset_reg (r : Nibble) : State.reset.reg r = 0 :=
  Vector.getElem_replicate r.isLt

theorem reset_inv : Inv State.reset where
  config := by decide
  ram := reset_ram_wf
  slots := List.length_replicate
  depth := Nat.zero_le _
  tone := by decide
  latch := fun h => absurd rfl h

/-! ### A load that fits -/

/-- What a load leaves (R51): the reset state, but for the configuration and what follows from it, the image in RAM, and
what the load does not touch or appends to. -/
def State.afterLoad (s : State) (m : Memory) : State :=
  { State.reset with
    cfg := s.cfg
    ram := m
    pc := BitVec.ofNat 16 s.cfg.programStart
    stack := List.replicate s.cfg.stackDepth 0
    live := s.live
    events := s.events ++ (if 0 < s.st.toNat then [.stop] else [])
    draws := s.draws
    schedule := s.schedule }

theorem resetCore_withRam (s : State) (m : Memory) : { resetCore s with ram := m } = s.afterLoad m := by
  rw [resetCore_eq]
  rfl

theorem afterLoad_ready {s : State} (h : s.cfg.wellFormed = true) (m : Memory) : Ready (s.afterLoad m) :=
  ⟨⟨h, rfl, rfl⟩, rfl⟩

theorem afterLoad_pc {s : State} (h : s.cfg.wellFormed = true) (m : Memory) :
    (s.afterLoad m).pc.toNat = s.cfg.programStart := by
  obtain ⟨hstart, hmem, -, -⟩ := wellFormed_iff.mp h
  exact (BitVec.toNat_ofNat _ _).trans (Nat.mod_eq_of_lt (by omega))

/-- RAM reads as the image at `PROGRAM_START`, and elsewhere as a reset leaves it (R341, R344). -/
def ReadsAsImage (c : Config) (image : List Byte) (m : Memory) : Prop :=
  ∀ e, Memory.read c m e =
    if c.programStart ≤ e then (image[e - c.programStart]?).getD (resetByte c e) else resetByte c e

/-- A load of an image that fits (R341, R344), and what RAM reads as after it. -/
theorem load_of_fits {s : State} {image : List Byte} (hwf : s.cfg.wellFormed = true)
    (hfits : s.cfg.programStart + image.length ≤ s.cfg.memSize) :
    ∃ m : Memory, load (some image) s = .next (true, s.afterLoad m) ∧
      ReadsAsImage s.cfg image m := by
  obtain ⟨m, hload, -, hread⟩ := loadImage_ok hfits
  rw [resetCore_withRam] at hload
  exact ⟨m, by simp only [load, hwf, hload], hread⟩

/-- A load that returns true, as an operation of a run. -/
theorem hostOp_load_of_load {s t : State} {image : Option (List Byte)} (h : load image s = .next (true, t)) :
    hostOp (.load image) s = .next t := by
  simp only [hostOp, loadOp, h]

section
variable {s : State} {image : List Byte} {m : Memory} (hread : ReadsAsImage s.cfg image m)
include hread

theorem memRead_afterLoad_image (hfits : s.cfg.programStart + image.length ≤ s.cfg.memSize) {j : Nat} {b : Byte}
    (hb : image[j]? = some b) : memRead (s.afterLoad m) (s.cfg.programStart + j) = .ok b := by
  obtain ⟨hj, -⟩ := List.getElem?_eq_some_iff.mp hb
  have hbyte : Memory.read s.cfg m (s.cfg.programStart + j) = b := by simp [hread (s.cfg.programStart + j), hb]
  exact (memRead_ok (s := s.afterLoad m) (show _ < s.cfg.memSize by omega)).trans (congrArg _ hbyte)

theorem memRead_afterLoad_font (hwf : s.cfg.wellFormed = true) {j : Nat} {b : Byte}
    (hb : s.cfg.font[j]? = some b) : memRead (s.afterLoad m) (s.cfg.fontBase + j) = .ok b := by
  obtain ⟨hstart, -, hfont, -⟩ := wellFormed_iff.mp hwf
  obtain ⟨hj, -⟩ := Vector.getElem?_eq_some_iff.mp hb
  have hbyte : Memory.read s.cfg m (s.cfg.fontBase + j) = b := by
    rw [hread (s.cfg.fontBase + j), if_neg (by omega), resetByte_font hb]
  exact (memRead_ok (s := s.afterLoad m) (show _ < s.cfg.memSize by omega)).trans (congrArg _ hbyte)

theorem memRead_afterLoad_rest {a : Nat} (ha : a < s.cfg.memSize)
    (hfont : ¬ (s.cfg.fontBase ≤ a ∧ a < s.cfg.fontBase + 80))
    (himage : ¬ (s.cfg.programStart ≤ a ∧ a < s.cfg.programStart + image.length)) :
    memRead (s.afterLoad m) a = .ok 0 := by
  have hbyte : Memory.read s.cfg m a = 0 := by
    rw [hread a, resetByte_outside_font hfont]
    split
    · rw [List.getElem?_eq_none (by omega)]
      rfl
    · rfl
  exact (memRead_ok (s := s.afterLoad m) ha).trans (congrArg _ hbyte)

end

/-! ### A load that does not fit -/

/-- A load of an image that does not fit faults at `MEM_SIZE` (R346). -/
theorem hostOp_load_too_long {s : State} {image : List Byte} (hwf : s.cfg.wellFormed = true)
    (hlong : s.cfg.memSize - s.cfg.programStart < image.length) :
    hostOp (.load (some image)) s = .fault (.memoryRange s.cfg.memSize) := by
  obtain ⟨hstart, -⟩ := wellFormed_iff.mp hwf
  have hload : loadImage image s = .error (.memoryRange s.cfg.memSize) := loadImage_error hstart (by omega)
  simp only [hostOp, loadOp, load, hwf, hload]
  rfl

/-! ### After a fault -/

theorem operate_next {op : HostOp} {s t : State} (h : hostOp op s = .next t) : operate op s = .next t := by
  simp only [operate, h]

theorem operate_fault {op : HostOp} {s : State} {f : Fault} (h : hostOp op s = .fault f) :
    operate op s = .next (afterFault f (atFault op s)) := by
  simp only [operate, h]

theorem operate_refused {op : HostOp} {s : State} {r : Refusal} (h : hostOp op s = .refused r) :
    operate op s = .refused r := by
  simp only [operate, h]

/-- The ticks of a faulted core are refused (R305). -/
theorem operate_ticks_afterFault (f : Fault) {s : State} (h : s.cfg.wellFormed = true) :
    operate .cpuTick (afterFault f s) = .refused (.faulted f) ∧
      operate .timerTick (afterFault f s) = .refused (.faulted f) := by
  have hr : tickRefusal (afterFault f s) = some (.faulted f) := tickRefusal_faulted h rfl rfl
  exact ⟨operate_refused (cpuTick_refused hr), operate_refused (timerTick_refused hr)⟩

/-- A load of an image that fits starts the core (R305, R320). -/
theorem operate_load_ready {s : State} {image : List Byte} (hwf : s.cfg.wellFormed = true)
    (hfits : s.cfg.programStart + image.length ≤ s.cfg.memSize) :
    ∃ u, operate (.load (some image)) s = .next u ∧ Ready u := by
  obtain ⟨m, hload, -⟩ := load_of_fits hwf hfits
  exact ⟨_, operate_next (hostOp_load_of_load hload), afterLoad_ready hwf m⟩

/-! ### The statements -/

/-- Settles O12: the state of `afterFault`, whose ticks are refused and which a load leaves. -/
theorem faultHaltsUntilLoad : Obligations.FaultHaltsUntilLoad := by
  intro s op f hwf hfault
  have hcfg : (afterFault f (atFault op s)).cfg = s.cfg := atFault_cfg op s
  obtain ⟨hcpu, htimer⟩ := operate_ticks_afterFault f (s := atFault op s) (by rwa [atFault_cfg])
  refine ⟨_, operate_fault hfault, rfl, hcfg, fun hop => ?_, hcpu, htimer, fun image hfits => ?_⟩
  · change (atFault op s).events = s.events
    rw [atFault_of_not_load s hop]
  · exact operate_load_ready (by rwa [hcfg]) (by rwa [hcfg])

/-- Settles O13: the fields of the reset state by evaluation, and RAM as `resetByte` gives it. -/
theorem resetStateValues : Obligations.ResetStateValues := by
  refine ⟨reset_reg, rfl, rfl, rfl, rfl, rfl, rfl, rfl, fun y hy => ?_,
    rfl, rfl, rfl, rfl, rfl, rfl, rfl, rfl, rfl, rfl, fun j b hb => ?_, by decide, fun a hfont ha => ?_⟩
  · exact Vector.getElem?_replicate.trans (if_pos hy)
  · obtain ⟨hj, -⟩ := Vector.getElem?_eq_some_iff.mp hb
    have hbyte := resetByte_font hb
    rw [show State.reset.cfg.fontBase + j = j from Nat.zero_add j] at hbyte
    exact (memRead_reset (by omega)).trans (congrArg _ hbyte)
  · rw [memRead_reset ha, resetByte_outside_font (by change ¬ (0 ≤ a ∧ a < 0 + 80); omega)]

/-- Settles O14: the state `load_of_fits` names, field by field, and its RAM by the three lemmas on `memRead`. -/
theorem loadLeavesResetValues : Obligations.LoadLeavesResetValues := by
  refine ⟨rfl, fun s image hwf hfits => ?_⟩
  obtain ⟨m, hload, hread⟩ := load_of_fits hwf hfits
  exact ⟨s.afterLoad m, hload, hostOp_load_of_load hload, reset_reg, rfl, afterLoad_pc hwf m, List.length_replicate,
    fun _ ha => List.eq_of_mem_replicate ha, rfl, rfl, rfl, rfl,
    fun _ _ => memRead_afterLoad_image hread hfits, fun _ _ => memRead_afterLoad_font hread hwf,
    fun _ => memRead_afterLoad_rest hread, fun _ hy => Vector.getElem?_replicate.trans (if_pos hy),
    rfl, rfl, rfl, rfl, rfl, rfl, rfl, rfl, rfl, afterLoad_ready hwf m, rfl, rfl⟩

/-- Settles O15: the fault of the first image byte outside RAM, after the reset and its stop(). -/
theorem loadOfTooLongImageFaults : Obligations.LoadOfTooLongImageFaults := by
  intro s image hwf hlong
  have hfault := hostOp_load_too_long hwf hlong
  exact ⟨hfault, _, operate_fault hfault, rfl, atFault_load_events image s⟩

/-- Settles O16: a load without an image answers before it resets anything. -/
theorem loadWithoutImageChangesNothing : Obligations.LoadWithoutImageChangesNothing := by
  intro s hwf
  have hload : load none s = .next (false, s) := by simp only [load, hwf]
  exact ⟨hload, by simp only [hostOp, loadOp, hload]⟩

/-- Settles O18, field by field of the invariant. -/
theorem resetMeetsInvariant : Obligations.ResetMeetsInvariant := reset_inv

end Sys2Proof.Machine

/-! PROOFS (`10_state.md`, R45 to R49 and R275; `00_scope.md`, section 3; `60_exceptions.md`, R302 to R307). The
whole machine. An instruction other than LD Vx, K does the same whatever the host's side of the input holds (the
live mask, the run state, `waitReg` and the latch) and leaves it; LD Vx, K assigns three of the four. What a host
operation can do to the run state is one relation, `RunStep`, and what it keeps of the invariant is said per
operation. -/

namespace Sys2Proof.Machine

/-! ### The input side of the state -/

/-- The live mask, the run state and what a key wait holds. -/
structure Input where
  live : Keys
  cpu : RunState
  waitReg : Nibble
  pendingKey : Option Nibble

def State.input (s : State) : Input := ⟨s.live, s.cpu, s.waitReg, s.pendingKey⟩

/-- The state with another input side. -/
def State.withInput (s : State) (n : Input) : State :=
  { s with live := n.live, cpu := n.cpu, waitReg := n.waitReg, pendingKey := n.pendingKey }

@[simp] theorem withInput_input (s : State) (n : Input) : (s.withInput n).input = n := rfl
@[simp] theorem withInput_cfg (s : State) (n : Input) : (s.withInput n).cfg = s.cfg := rfl
@[simp] theorem withInput_i (s : State) (n : Input) : (s.withInput n).i = s.i := rfl
@[simp] theorem withInput_reg (s : State) (n : Input) (r : Nibble) : (s.withInput n).reg r = s.reg r := rfl
@[simp] theorem withInput_lowRegs (s : State) (n : Input) (x : Nibble) :
    (s.withInput n).lowRegs x = s.lowRegs x := rfl
@[simp] theorem withInput_indexAfterTransfer (s : State) (n : Input) (x : Nibble) :
    indexAfterTransfer (s.withInput n) x = indexAfterTransfer s x := rfl

/-! ### The shared operations on another input side -/

theorem skipIf_withInput (c : Bool) (s : State) (n : Input) :
    skipIf c (s.withInput n) = (skipIf c s).withInput n := by
  cases c <;> rfl

theorem keyTest_withInput (s : State) (x : Nibble) (n : Input) :
    keyTest (s.withInput n) x = ((keyTest s x).1, (keyTest s x).2.withInput n) := by
  rcases Nat.lt_or_ge 15 (s.reg x).toNat with hx | hx
  · rw [keyTest_draw hx, keyTest_draw (s := s.withInput n) hx]
    rfl
  · rw [keyTest_key hx, keyTest_key (s := s.withInput n) hx]
    rfl

theorem soundSet_withInput (s : State) (b : Byte) (n : Input) :
    soundSet (s.withInput n) b = (soundSet s b).withInput n := by
  rw [soundSet_eq, soundSet_eq]
  rfl

theorem readBytes_withInput (s : State) (n : Input) (c a : Nat) : readBytes c (s.withInput n) a = readBytes c s a :=
  readBytes_congr (s := s) (t := s.withInput n) (fun _ => rfl) c a

theorem memWrite_withInput (s : State) (n : Input) (a : Nat) (b : Byte) :
    memWrite (s.withInput n) a b = (memWrite s a b).map (·.withInput n) := by
  rcases Nat.lt_or_ge a s.cfg.memSize with ha | ha
  · rw [memWrite_ok b ha]
    exact memWrite_ok b ha
  · rw [memWrite_error b ha]
    exact memWrite_error b ha

theorem writeBytes_withInput (bs : List Byte) (s : State) (n : Input) (a : Nat) :
    writeBytes bs (s.withInput n) a = (writeBytes bs s a).map (·.withInput n) := by
  induction bs generalizing s a with
  | nil => rfl
  | cons b bs ih =>
    simp only [writeBytes, memWrite_withInput]
    cases memWrite s a b with
    | error f => rfl
    | ok t => exact ih t (a + 1)

theorem regFileWrite_withInput (s : State) (n : Input) (k : Nat) (b : Byte) :
    regFileWrite (s.withInput n) k b = (regFileWrite s k b).map (·.withInput n) := by
  unfold regFileWrite
  split <;> rfl

theorem writeRegs_withInput (bs : List Byte) (s : State) (n : Input) (k : Nat) :
    writeRegs bs (s.withInput n) k = (writeRegs bs s k).map (·.withInput n) := by
  induction bs generalizing s k with
  | nil => rfl
  | cons b bs ih =>
    simp only [writeRegs, regFileWrite_withInput]
    cases regFileWrite s k b with
    | error f => rfl
    | ok t => exact ih t (k + 1)

/-! ### The instructions -/

theorem exec_drw_withInput (x y h : Nibble) (s : State) (n : Input) :
    exec (.drw x y h) (s.withInput n) = onNext (·.withInput n) (exec (.drw x y h) s) := by
  simp only [exec, execDrw, withInput_i, readBytes_withInput]
  cases readBytes h.toNat s s.i.toNat <;> rfl

theorem exec_ldB_withInput (x : Nibble) (s : State) (n : Input) :
    exec (.ldB x) (s.withInput n) = onNext (·.withInput n) (exec (.ldB x) s) := by
  simp only [exec, execLdB, withInput_reg, withInput_i, writeBytes_withInput]
  cases writeBytes (decimalDigits (s.reg x)) s s.i.toNat <;> rfl

theorem exec_stRegs_withInput (x : Nibble) (s : State) (n : Input) :
    exec (.stRegs x) (s.withInput n) = onNext (·.withInput n) (exec (.stRegs x) s) := by
  simp only [exec, execStRegs, readRegs_lowRegs, withInput_lowRegs, withInput_i, withInput_indexAfterTransfer,
    writeBytes_withInput]
  cases writeBytes (s.lowRegs x) s s.i.toNat <;> rfl

theorem exec_ldRegs_withInput (x : Nibble) (s : State) (n : Input) :
    exec (.ldRegs x) (s.withInput n) = onNext (·.withInput n) (exec (.ldRegs x) s) := by
  simp only [exec, execLdRegs, withInput_i, withInput_indexAfterTransfer, readBytes_withInput, writeRegs_withInput]
  cases readBytes (x.toNat + 1) s s.i.toNat with
  | error f => rfl
  | ok bs =>
    dsimp only
    cases writeRegs bs s 0 <;> rfl

theorem exec_call_withInput (nnn : Addr12) (s : State) (n : Input) :
    exec (.call nnn) (s.withInput n) = onNext (·.withInput n) (exec (.call nnn) s) := by
  rcases Nat.lt_or_ge s.sp s.cfg.stackDepth with hsp | hsp
  · rw [exec_call_next nnn hsp, exec_call_next (s := s.withInput n) nnn hsp]
    rfl
  · rw [exec_call_overflow nnn hsp, exec_call_overflow (s := s.withInput n) nnn hsp]
    rfl

theorem exec_ret_withInput (s : State) (n : Input) :
    exec .ret (s.withInput n) = onNext (·.withInput n) (exec .ret s) := by
  rcases Nat.eq_zero_or_pos s.sp with hsp | hsp
  · rw [exec_ret_underflow hsp, exec_ret_underflow (s := s.withInput n) hsp]
    rfl
  · rw [exec_ret_next hsp, exec_ret_next (s := s.withInput n) hsp]
    rfl

/-- Only LD Vx, K uses the input side: on any other one every other instruction does the same, and leaves it. -/
theorem exec_withInput {i : Instr} (hi : ∀ x, i ≠ .ldVxK x) (s : State) (n : Input) :
    exec i (s.withInput n) = onNext (·.withInput n) (exec i s) := by
  cases i with
  | ldVxK x => exact absurd rfl (hi x)
  | ret => exact exec_ret_withInput s n
  | call nnn => exact exec_call_withInput nnn s n
  | seImm | sneImm | seReg | sneReg => exact congrArg Host.Outcome.next (skipIf_withInput ..)
  | skp x | sknp x =>
    simp only [exec, execSkp, execSknp, keyTest_withInput, skipIf_withInput]
    rfl
  | addImm x kk =>
    simp only [exec, execAddImm, withInput_cfg]
    cases s.cfg.addImmSetsVf <;> rfl
  | ldStVx x => exact congrArg Host.Outcome.next (soundSet_withInput ..)
  | drw x y h => exact exec_drw_withInput x y h s n
  | ldB x => exact exec_ldB_withInput x s n
  | stRegs x => exact exec_stRegs_withInput x s n
  | ldRegs x => exact exec_ldRegs_withInput x s n
  | _ => rfl

/-- So it leaves the input side it finds. -/
theorem exec_input {i : Instr} (hi : ∀ x, i ≠ .ldVxK x) {s t : State} (h : exec i s = .next t) :
    t.input = s.input := by
  have ht : exec i s = onNext (·.withInput s.input) (exec i s) := exec_withInput hi s s.input
  rw [h] at ht
  rw [Host.Outcome.next.inj ht, withInput_input]

/-- An instruction is LD Vx, K or leaves the input side. -/
theorem exec_input_cases {i : Instr} {s t : State} (h : exec i s = .next t) :
    (∃ x, i = .ldVxK x ∧ t = pauseForKey s x) ∨ t.input = s.input := by
  by_cases hi : ∃ x, i = .ldVxK x
  · obtain ⟨x, rfl⟩ := hi
    exact .inl ⟨x, rfl, (Host.Outcome.next.inj h).symm⟩
  · exact .inr (exec_input (not_exists.mp hi) h)

/-- R45, R280: LD Vx, K neither reads nor writes the live mask, so no instruction does. -/
theorem exec_with_live (i : Instr) (s : State) (m : Keys) :
    exec i { s with live := m } = onNext (fun t => { t with live := m }) (exec i s) := by
  by_cases hi : ∃ x, i = .ldVxK x
  · obtain ⟨x, rfl⟩ := hi
    rfl
  · have hsame := exec_withInput (not_exists.mp hi) s { s.input with live := m }
    cases he : exec i s with
    | next t => exact hsame.trans (by rw [he, ← exec_input (not_exists.mp hi) he]; rfl)
    | fault f => exact hsame.trans (by rw [he]; rfl)
    | refused r => exact hsame.trans (by rw [he]; rfl)

theorem exec_live {i : Instr} {s t : State} (h : exec i s = .next t) : t.live = s.live := by
  obtain ⟨x, -, rfl⟩ | hinput := exec_input_cases h
  · rfl
  · exact congrArg Input.live hinput

/-! ### The faults of an instruction -/

/-- The causes of R302 to R304: an empty or a full stack, or a block of bytes at I that leaves RAM, whose fault
carries the lowest address outside (R307). -/
def FaultCause (i : Instr) (s : State) (f : Fault) : Prop :=
  (i = .ret ∧ s.sp = 0 ∧ f = .stackUnderflow) ∨
  (∃ nnn, i = .call nnn ∧ s.cfg.stackDepth ≤ s.sp ∧ f = .stackOverflow) ∨
  (∃ n, 0 < n ∧ s.cfg.memSize < s.i.toNat + n ∧ f = .memoryRange (max s.i.toNat s.cfg.memSize) ∧
    ((∃ x y k, i = .drw x y k ∧ n = k.toNat) ∨ (∃ x, i = .ldB x ∧ n = 3) ∨
     (∃ x, i = .stRegs x ∧ n = x.toNat + 1) ∨ (∃ x, i = .ldRegs x ∧ n = x.toNat + 1)))

/-- An instruction answers a next state, or a fault that has its cause. -/
theorem exec_outcome (i : Instr) (s : State) :
    (∃ t, exec i s = .next t) ∨ ∃ f, exec i s = .fault f ∧ FaultCause i s f := by
  cases i with
  | ret =>
    rcases Nat.eq_zero_or_pos s.sp with hsp | hsp
    · exact .inr ⟨_, exec_ret_underflow hsp, .inl ⟨rfl, hsp, rfl⟩⟩
    · exact .inl ⟨_, exec_ret_next hsp⟩
  | call nnn =>
    rcases Nat.lt_or_ge s.sp s.cfg.stackDepth with hsp | hsp
    · exact .inl ⟨_, exec_call_next nnn hsp⟩
    · exact .inr ⟨_, exec_call_overflow nnn hsp, .inr (.inl ⟨nnn, rfl, hsp, rfl⟩)⟩
  | drw x y n =>
    rcases em (n = 0 ∨ s.i.toNat + n.toNat ≤ s.cfg.memSize) with hfits | hout
    · exact .inl ⟨_, exec_drw_next (readBytes_ok (hfits.imp_left (congrArg BitVec.toNat)))⟩
    · obtain ⟨hn, hout⟩ := not_or.mp hout
      have hpos : 0 < n.toNat := Nat.pos_of_ne_zero fun h0 => hn (BitVec.eq_of_toNat_eq h0)
      have hout := Nat.not_le.mp hout
      exact .inr ⟨_, exec_drw_outside x y hn hout,
        .inr (.inr ⟨n.toNat, hpos, hout, rfl, .inl ⟨x, y, n, rfl, rfl⟩⟩)⟩
  | ldB x =>
    rcases Nat.lt_or_ge (s.i.toNat + 2) s.cfg.memSize with hfits | hout
    · obtain ⟨m, hw, -⟩ := writeBytes_ok (bs := decimalDigits (s.reg x)) (s := s) (a := s.i.toNat) (.inr hfits)
      exact .inl ⟨_, exec_ldB_next hw⟩
    · exact .inr ⟨_, exec_ldB_outside x hout,
        .inr (.inr ⟨3, by omega, by omega, rfl, .inr (.inl ⟨x, rfl, rfl⟩)⟩)⟩
  | stRegs x =>
    rcases Nat.lt_or_ge (s.i.toNat + x.toNat) s.cfg.memSize with hfits | hout
    · obtain ⟨t, ht, -⟩ := exec_stRegs_spec hfits
      exact .inl ⟨t, ht⟩
    · exact .inr ⟨_, exec_stRegs_outside hout,
        .inr (.inr ⟨x.toNat + 1, by omega, by omega, rfl, .inr (.inr (.inl ⟨x, rfl, rfl⟩))⟩)⟩
  | ldRegs x =>
    rcases Nat.lt_or_ge (s.i.toNat + x.toNat) s.cfg.memSize with hfits | hout
    · obtain ⟨t, ht, -⟩ := exec_ldRegs_spec hfits
      exact .inl ⟨t, ht⟩
    · exact .inr ⟨_, exec_ldRegs_outside hout,
        .inr (.inr ⟨x.toNat + 1, by omega, by omega, rfl, .inr (.inr (.inr ⟨x, rfl, rfl⟩))⟩)⟩
  | _ => exact .inl ⟨_, rfl⟩

/-! ### The operations of the host -/

/-- What a load that answers a next state leaves. -/
theorem loadOp_afterLoad {image : Option (List Byte)} {s t : State} (h : loadOp image s = .next t) :
    s.cfg.wellFormed = true ∧ ∃ m, t = s.afterLoad m ∧ Memory.wf s.cfg m := by
  obtain ⟨bytes, -, hwf, hload⟩ := loadOp_next h
  obtain ⟨m, rfl, hm⟩ := writeBytes_frame hload
  rw [resetCore_withRam]
  rw [resetCore_eq] at hm
  exact ⟨hwf, m, rfl, hm ⟨List.Pairwise.nil, fun p hp => absurd hp List.not_mem_nil⟩⟩

/-- A timer tick is the setter of each timer. -/
theorem timerTick_eq_set {s t : State} (h : timerTick s = .next t) :
    t = soundSet (delaySet s (countDown s.dt)) (countDown s.st) := by
  obtain ⟨-, rfl⟩ := timerTick_next h
  rw [delayTick_eq_delaySet, soundTick_eq_soundSet]
  rfl

theorem frame_timerTick {s t : State} (h : timerTick s = .next t) :
    Frame (fun p => p = .delay ∨ p = .sound ∨ p = .events ∨ p = .tone) s t := by
  rw [timerTick_eq_set h]
  exact ((frame_delaySet s _).mono fun _ h => .inl h).trans ((frame_soundSet _ _).mono fun _ h => .inr h)

/-- What a host operation does to the configuration and to the fault report (R48, R49, D17). -/
theorem hostOp_config_fault {op : HostOp} {s t : State} (h : hostOp op s = .next t) :
    t.cfg = s.cfg ∧ (t.fault = s.fault ∨ (t.fault = none ∧ ∃ image, op = .load image)) := by
  cases op with
  | load image =>
    obtain ⟨-, m, rfl, -⟩ := loadOp_afterLoad h
    exact ⟨rfl, .inr ⟨rfl, image, rfl⟩⟩
  | cpuTick =>
    obtain ⟨-, ⟨-, rfl⟩ | ⟨-, w, i, -, -, hexec⟩⟩ := cpuTick_next h
    · have hframe := frame_resumeIfEdge (inputLock s)
      exact ⟨hframe .cfg (by simp), .inl (hframe .fault (by simp))⟩
    · have hkept := exec_kept hexec
      exact ⟨hkept.cfg, .inl hkept.fault⟩
  | timerTick => exact ⟨frame_timerTick h .cfg (by simp), .inl (frame_timerTick h .fault (by simp))⟩
  | keyDown k =>
    obtain ⟨-, rfl⟩ := keyDown_next h
    exact ⟨frame_pressKey s _ .cfg (by simp), .inl (frame_pressKey s _ .fault (by simp))⟩
  | keyUp k =>
    obtain ⟨-, rfl⟩ := keyUp_next h
    exact ⟨rfl, .inl rfl⟩

/-- What a host operation can do to the run state (R46): nothing, the pause of an LD Vx, K that the tick has fetched,
the resume on a latched edge, or the reset of a load. -/
inductive RunStep (op : HostOp) (s t : State) : Prop where
  | same (cpu : t.cpu = s.cpu)
  | pauses (w : Word) (x : Nibble) (fetched : fetch (inputLock s) = .ok (w, fetched s))
      (decoded : decode w = .ok (.ldVxK x)) (cpu : t.cpu = .paused) (waitReg : t.waitReg = x)
  | resumes (k : Nibble) (latched : s.pendingKey = some k) (cpu : t.cpu = .running)
      (stored : (t.reg s.waitReg).toNat = k.toNat)
  | loads (image : Option (List Byte)) (load : op = .load image) (cpu : t.cpu = .running)

theorem cpuTick_runStep {s t : State} (h : cpuTick s = .next t) : RunStep .cpuTick s t := by
  obtain ⟨-, ⟨-, rfl⟩ | ⟨-, w, i, hfetch, hd, hexec⟩⟩ := cpuTick_next h
  · cases hk : s.pendingKey with
    | none =>
      rw [resumeIfEdge_none (s := inputLock s) hk]
      exact .same rfl
    | some k =>
      exact .resumes k hk (by rw [resumeIfEdge_some (s := inputLock s) hk]) (resumeIfEdge_reg (s := inputLock s) hk)
  · obtain ⟨x, rfl, rfl⟩ | hinput := exec_input_cases hexec
    · exact .pauses w x hfetch hd rfl rfl
    · exact .same (congrArg Input.cpu hinput)

theorem hostOp_runStep {op : HostOp} {s t : State} (h : hostOp op s = .next t) : RunStep op s t := by
  cases op with
  | load image =>
    obtain ⟨-, m, rfl, -⟩ := loadOp_afterLoad h
    exact .loads image rfl rfl
  | cpuTick => exact cpuTick_runStep h
  | timerTick => exact .same (frame_timerTick h .run (by simp))
  | keyDown k =>
    obtain ⟨-, rfl⟩ := keyDown_next h
    exact .same (frame_pressKey s _ .run (by simp))
  | keyUp k =>
    obtain ⟨-, rfl⟩ := keyUp_next h
    exact .same rfl

/-- A fetch that answers a word has read its two bytes (R104). -/
theorem memRead_of_fetch {s t : State} {w : Word} (h : fetch s = .ok (w, t)) :
    ∃ hi lo, memRead s s.pc.toNat = .ok hi ∧ memRead s (s.pc.toNat + 1) = .ok lo ∧
      w.toNat = hi.toNat * 256 + lo.toNat := by
  obtain ⟨hpc, -, rfl⟩ := fetch_cases h
  exact ⟨_, _, memRead_ok (by omega), memRead_ok hpc, joinBytes_toNat _ _⟩

/-! ### The invariant -/

/-- An operation that leaves the configuration, RAM and the stack. -/
theorem Inv.of_same {s t : State} (hs : Inv s) (hcfg : t.cfg = s.cfg) (hram : t.ram = s.ram)
    (hstack : t.stack = s.stack) (hsp : t.sp = s.sp) (htone : t.tone = .on ↔ 0 < t.st.toNat)
    (hlatch : t.pendingKey ≠ none → t.cpu = .paused) : Inv t where
  config := hcfg ▸ hs.config
  ram := by rw [hcfg, hram]; exact hs.ram
  slots := by rw [hcfg, hstack]; exact hs.slots
  depth := by rw [hcfg, hsp]; exact hs.depth
  tone := htone
  latch := hlatch

/-- A load leaves the invariant of a reset under the configuration it finds. -/
theorem afterLoad_inv {s : State} {m : Memory} (hwf : s.cfg.wellFormed = true) (hm : Memory.wf s.cfg m) :
    Inv (s.afterLoad m) where
  config := hwf
  ram := hm
  slots := List.length_replicate
  depth := Nat.zero_le _
  tone := by simp [State.afterLoad, State.reset]
  latch := fun h => absurd rfl h

/-- An instruction latches no key: LD Vx, K forgets the latch, and every other one leaves it, which a RUNNING core does
not have. -/
theorem exec_latch {i : Instr} {s t : State} (hs : Inv s) (hrun : s.cpu = .running) (h : exec i s = .next t) :
    t.pendingKey = none := by
  obtain ⟨x, -, rfl⟩ | hinput := exec_input_cases h
  · rfl
  · have hsame : t.pendingKey = s.pendingKey := congrArg Input.pendingKey hinput
    rw [hsame]
    by_contra hlatched
    cases hrun.symm.trans (hs.latch hlatched)

theorem exec_inv {i : Instr} {s t : State} (hs : Inv s) (hrun : s.cpu = .running) (h : exec i s = .next t) :
    Inv t := by
  have hkept := exec_kept h
  constructor
  case config => exact hkept.cfg ▸ hs.config
  case ram => rw [hkept.cfg]; exact hkept.ram hs.ram
  case slots => rw [hkept.cfg, exec_stack_length h, hs.slots]
  case depth => rw [hkept.cfg]; exact exec_sp_le h hs.depth
  case tone => exact (exec_soundStep h).tone_on_iff hs.tone
  case latch => exact fun hlatched => absurd (exec_latch hs hrun h) hlatched

/-- The keys locked, PC advanced, and another schedule: nothing the invariant is about. -/
theorem Inv.fetched {s : State} (hs : Inv s) : Inv (fetched s) :=
  hs.of_same rfl rfl rfl rfl hs.tone hs.latch

theorem Inv.withSchedule {s : State} (hs : Inv s) (ops : List HostOp) : Inv { s with schedule := ops } :=
  hs.of_same rfl rfl rfl rfl hs.tone hs.latch

theorem pausedTick_inv {s : State} (hs : Inv s) : Inv (resumeIfEdge (inputLock s)) := by
  cases hk : s.pendingKey with
  | none =>
    rw [resumeIfEdge_none (s := inputLock s) hk]
    exact hs.of_same rfl rfl rfl rfl hs.tone hs.latch
  | some k =>
    rw [resumeIfEdge_some (s := inputLock s) hk]
    exact hs.of_same rfl rfl rfl rfl hs.tone fun h => absurd rfl h

/-- R47: a press latches a key while PAUSED only. -/
theorem pressKey_inv {s : State} (hs : Inv s) (k : Nibble) : Inv (pressKey s k) := by
  rw [pressKey_eq]
  split
  · exact hs
  · refine hs.of_same rfl rfl rfl rfl hs.tone fun hlatched => ?_
    by_cases hedge : s.cpu = .paused ∧ s.pendingKey = none
    · exact hedge.1
    · exact hs.latch (by simpa [hedge] using hlatched)

theorem timerTick_inv {s t : State} (hs : Inv s) (h : timerTick s = .next t) : Inv t := by
  have htone := (timerTick_soundStep h).tone_on_iff hs.tone
  rw [timerTick_eq_set h, soundSet_eq] at htone ⊢
  exact hs.of_same rfl rfl rfl rfl htone hs.latch

theorem hostOp_inv {op : HostOp} {s t : State} (hs : Inv s) (h : hostOp op s = .next t) : Inv t := by
  cases op with
  | load image =>
    obtain ⟨hwf, m, rfl, hm⟩ := loadOp_afterLoad h
    exact afterLoad_inv hwf hm
  | cpuTick =>
    obtain ⟨-, ⟨-, rfl⟩ | ⟨hrun, w, i, -, -, hexec⟩⟩ := cpuTick_next h
    · exact pausedTick_inv hs
    · exact exec_inv hs.fetched hrun hexec
  | timerTick => exact timerTick_inv hs h
  | keyDown k =>
    obtain ⟨-, rfl⟩ := keyDown_next h
    exact pressKey_inv hs _
  | keyUp k =>
    obtain ⟨-, rfl⟩ := keyUp_next h
    exact hs.of_same rfl rfl rfl rfl hs.tone hs.latch

/-! ### The step -/

/-- A step is a host operation, and a load only where the schedule begins with one. -/
theorem step_hostOp {s t : State} (h : step s = .next t) :
    ∃ op, hostOp op { s with schedule := s.schedule.tail } = .next t ∧
      ∀ image, op = .load image → s.schedule.head? = some (.load image) := by
  refine ⟨_, step_eq s ▸ h, fun image himage => ?_⟩
  cases hsch : s.schedule with
  | nil => simp [hsch] at himage
  | cons op rest => simpa [hsch] using himage

/-! ### The statements -/

/-- Settles O17: every operation keeps the invariant, and a schedule taken off is no part of it. -/
theorem stepKeepsInvariant : Obligations.StepKeepsInvariant := by
  intro s t hs hstep
  obtain ⟨op, hop, -⟩ := step_hostOp hstep
  exact hostOp_inv (hs.withSchedule _) hop

/-- Settles O21, by the cases of `RunStep`. -/
theorem onlyKeyWaitPauses : Obligations.OnlyKeyWaitPauses := by
  intro s t hstep
  obtain ⟨op, hop, hload⟩ := step_hostOp hstep
  have hrun := hostOp_runStep hop
  refine ⟨fun hs ht => ?_, fun hs ht => ?_⟩
  · cases hrun with
    | same cpu => cases hs.symm.trans (cpu.symm.trans ht)
    | pauses w x hfetch hd cpu waitReg =>
      obtain ⟨hi, lo, hhi, hlo, hw⟩ := memRead_of_fetch hfetch
      exact ⟨hi, lo, w, x, hhi, hlo, hw, hd, waitReg⟩
    | resumes k latched cpu stored => cases cpu.symm.trans ht
    | loads image himage cpu => cases cpu.symm.trans ht
  · cases hrun with
    | same cpu => cases hs.symm.trans (cpu.symm.trans ht)
    | pauses w x hfetch hd cpu waitReg => cases cpu.symm.trans ht
    | resumes k latched cpu stored => exact .inl ⟨k, latched, stored⟩
    | loads image himage cpu => exact .inr ⟨image, hload image himage⟩

/-- Settles O22, by what each operation does to the two fields. -/
theorem configurationNeverChanges : Obligations.ConfigurationNeverChanges := by
  intro s t hstep
  obtain ⟨op, hop, hload⟩ := step_hostOp hstep
  obtain ⟨hcfg, hfault⟩ := hostOp_config_fault hop
  exact ⟨hcfg, hfault.imp_right fun ⟨hnone, image, himage⟩ => ⟨hnone, image, hload image himage⟩⟩

/-- Settles O23: another live mask is another input side, which no instruction reads. -/
theorem instructionsDoNotReadLiveKeys : Obligations.InstructionsDoNotReadLiveKeys :=
  fun i s m => ⟨exec_with_live i s m, fun _ => exec_live⟩

/-- Settles O25: by `exec_outcome` the outcome is a next state or a fault that has its cause. -/
theorem instructionFaultsHaveTheirCause : Obligations.InstructionFaultsHaveTheirCause := by
  intro i s
  obtain ⟨t, ht⟩ | ⟨f, hf, hcause⟩ := exec_outcome i s
  · rw [ht]
    exact ⟨fun r hr => (by cases hr), fun g hg => by cases hg⟩
  · rw [hf]
    refine ⟨fun r hr => (by cases hr), fun g hg => ?_⟩
    cases hg
    exact hcause

end Sys2Proof.Machine
